-- ==== Sys2Proof/Word.lean ====
section
/-! DEFINITION. The word types of OWTC (spec/00_scope.md R7, R9). -/

namespace Sys2Proof

/-- A byte: `SR`, `ERRCODE`, `BUF[j]` (10_state.md R20). -/
abbrev Byte := BitVec 8

/-- A register of the host port, `REG_W` = 16 bits (00_scope.md R7), and a command word
(30_encoding.md R90). -/
abbrev Word := BitVec 16

/-- A word address of the register port, `ADDR_W` = 5 bits (00_scope.md R7). -/
abbrev Addr := BitVec 5

/-- The sequence position `k`, `K_W` = 13 bits (00_scope.md R7, 10_state.md R36). -/
abbrev Position := BitVec 13

/-- An index of the nine byte registers `BUF[0..8]`, `BUF_LEN` = 9 (00_scope.md R7). -/
abbrev BufIndex := Fin 9

/-- The number of a bit in a byte. -/
abbrev BitIndex := Fin 8

/-- The nine byte registers `BUF[0..8]` (10_state.md R34). -/
abbrev Buffer := Vector Byte 9

end Sys2Proof
end

