-- ==== Sys2Proof/Config.lean ====
section
/-! DEFINITION. The parameters of OWTC at the values the spec makes normative (spec/00_scope.md R6, R7),
the one open parameter, and the free inputs of a tick nobody scheduled. -/

namespace Sys2Proof.Config

/-! ## Durations in ticks of one microsecond (R6). Every one is 1 or more (R7). -/

/-- Reset: line driven low. -/
def tRstL : Nat := 480
/-- Reset: release to presence sample. -/
def tPds : Nat := 65
/-- Reset: recovery after the sample. -/
def tRstRec : Nat := 415
/-- Write 1: low. -/
def tW1L : Nat := 1
/-- Write 1: released. -/
def tW1H : Nat := 60
/-- Write 0: low. -/
def tW0L : Nat := 60
/-- Write 0: released. -/
def tW0H : Nat := 1
/-- Read: low, which starts the slot. -/
def tRdL : Nat := 1
/-- Read: release to sample. -/
def tRdS : Nat := 20
/-- Read: after the sample. -/
def tRdRec : Nat := 40

/-! ## Bytes the sequencer sends (R6, 30_encoding.md R95) -/

/-- "skip device addressing". -/
def cmdSkip : Byte := 0xCC
/-- "start temperature conversion". -/
def cmdConvert : Byte := 0x44
/-- "read scratchpad". -/
def cmdReadScratch : Byte := 0xBE

/-! ## Sizes (R6, R7) -/

/-- `SCRATCH_LEN` = `BUF_LEN`: the bytes a scratchpad read reads, and the byte registers there are. -/
def scratchLen : Nat := 9
/-- `TEMP_FRAC_BITS`: the fraction bits of `TEMP`. -/
def tempFracBits : Nat := 4

/-! ## Open values. No body: nothing can be proved of a value of one. -/

/-- `CLK_PER_TICK` less one (R7: OPEN, any integer of 1 or more; 93_implementation_defined.md U8). -/
opaque clkPerTickPred : Nat

/-- `CLK_PER_TICK`, clock cycles in a tick. No rule reads it (R7), nor does the model. -/
def clkPerTick : Nat := clkPerTickPred + 1

/-- `dev` of the `n`-th tick that the schedule does not hold: a free input (R5; log entry 3). -/
opaque freeDev : Nat → Bool
/-- `line_err` of the `n`-th tick that the schedule does not hold: a free input (R5; log entry 3). -/
opaque freeLineErr : Nat → Bool
/-- `line_err_code` of the `n`-th tick that the schedule does not hold: a free input (R5; log entry 3). -/
opaque freeLineErrCode : Nat → Byte

end Sys2Proof.Config
end

