-- ==== Sys2Proof/Syntax.lean ====
section
/-! DEFINITION. The nine commands of OWTC, one constructor per row of spec/opcode_table.json
(spec/30_encoding.md R92), and their names. -/

namespace Sys2Proof

/-- A command. Operands as spec/30_encoding.md R91 gives them: `b` one bit, `d` a byte, `n` a 4-bit
unsigned count of bytes. -/
inductive Instr where
  /-- `RESET`: reset pulse and presence detection (40_bus_bit.md R120). -/
  | reset
  /-- `WRITE_BIT b` (40_bus_bit.md R121); `true` writes a one. -/
  | writeBit (b : Bool)
  /-- `READ_BIT` (40_bus_bit.md R122). -/
  | readBit
  /-- `WRITE_BYTE d` (41_bus_byte.md R153). -/
  | writeByte (d : Byte)
  /-- `READ_BYTE` (41_bus_byte.md R154). -/
  | readByte
  /-- `WRITE_BYTES n` (41_bus_byte.md R155). -/
  | writeBytes (n : BitVec 4)
  /-- `READ_BYTES n` (41_bus_byte.md R156). -/
  | readBytes (n : BitVec 4)
  /-- `CONVERT` (42_sensor.md R172). -/
  | convert
  /-- `READ_TEMP` (42_sensor.md R173). -/
  | readTemp
  deriving DecidableEq, Repr

/-- The mnemonic of a command (30_encoding.md R92, R102). -/
def Instr.mnemonic : Instr → String
  | .reset => "RESET"
  | .writeBit _ => "WRITE_BIT"
  | .readBit => "READ_BIT"
  | .writeByte _ => "WRITE_BYTE"
  | .readByte => "READ_BYTE"
  | .writeBytes _ => "WRITE_BYTES"
  | .readBytes _ => "READ_BYTES"
  | .convert => "CONVERT"
  | .readTemp => "READ_TEMP"

end Sys2Proof
end

