-- ==== Sys2Proof/WellFormed.lean ====
section
/-! DEFINITION. Which terms of `Instr` are commands: the one restriction that the operand types do not
carry is the count of form `CN` (spec/30_encoding.md R90: "n <= 9"). -/

namespace Sys2Proof

/-- A byte count that form `CN` admits (30_encoding.md R90). -/
def countOk (n : BitVec 4) : Bool := decide (n.toNat ≤ 9)

/-- The command is well formed: its count, if it has one, is at most 9. -/
def Instr.wellFormed : Instr → Bool
  | .reset => true
  | .writeBit _ => true
  | .readBit => true
  | .writeByte _ => true
  | .readByte => true
  | .writeBytes n => countOk n
  | .readBytes n => countOk n
  | .convert => true
  | .readTemp => true

end Sys2Proof
end

