-- ==== Sys2Proof/Decode.lean ====
section
/-! DEFINITION. The decoder of command words, total on all 65536 words and rejecting by name, the encoder
after it, the legality predicate of R100 and the match and mask of R92 (spec/30_encoding.md). -/

namespace Sys2Proof

/-! ## Fields of the one format `C` (R90) -/

/-- `Z` = v[15:12]. -/
def zField (v : Word) : BitVec 4 := v.extractLsb' 12 4
/-- `OP` = v[11:8]. -/
def opField (v : Word) : BitVec 4 := v.extractLsb' 8 4
/-- `ARG` = v[7:0]. -/
def argField (v : Word) : Byte := v.extractLsb' 0 8

/-- Why a word is no command (R100). The hardware does not tell these apart (R101). -/
inductive DecodeReject where
  /-- `Z` is not 0. -/
  | reservedZ
  /-- `OP` is 0 or above 9. -/
  | reservedOp
  /-- An `ARG` bit that the form does not use is 1. -/
  | unusedArgBit
  /-- A count above 9. -/
  | countAboveNine
  deriving DecidableEq, Repr

/-- What the decoder answers. -/
inductive Decoded where
  | command (i : Instr)
  | rejected (why : DecodeReject)
  deriving DecidableEq, Repr

/-- The form `C0`: no operand, `ARG` = 0 (R90). -/
def decodeC0 (i : Instr) (arg : Byte) : Decoded :=
  if arg = 0 then .command i else .rejected .unusedArgBit

/-- The form `CB`: `b` = ARG[0], ARG[7:1] = 0 (R90). -/
def decodeCB (f : Bool → Instr) (arg : Byte) : Decoded :=
  if arg.extractLsb' 1 7 = 0 then .command (f (arg.getLsbD 0)) else .rejected .unusedArgBit

/-- The form `CN`: `n` = ARG[3:0], ARG[7:4] = 0, n at most 9 (R90). -/
def decodeCN (f : BitVec 4 → Instr) (arg : Byte) : Decoded :=
  if arg.extractLsb' 4 4 = 0 then
    if countOk (arg.extractLsb' 0 4) then .command (f (arg.extractLsb' 0 4))
    else .rejected .countAboveNine
  else .rejected .unusedArgBit

/-- Read `OP`, pick the row of R92, check the row's form (R94). -/
def decodeWord (v : Word) : Decoded :=
  if zField v = 0 then
    match (opField v).toNat with
    | 1 => decodeC0 .reset (argField v)
    | 2 => decodeCB .writeBit (argField v)
    | 3 => decodeC0 .readBit (argField v)
    | 4 => .command (.writeByte (argField v))
    | 5 => decodeC0 .readByte (argField v)
    | 6 => decodeCN .writeBytes (argField v)
    | 7 => decodeCN .readBytes (argField v)
    | 8 => decodeC0 .convert (argField v)
    | 9 => decodeC0 .readTemp (argField v)
    | _ => .rejected .reservedOp
  else .rejected .reservedZ

/-- The command a word stands for, `none` for an illegal word (R94). -/
def decode (v : Word) : Option Instr :=
  match decodeWord v with
  | .command i => some i
  | .rejected _ => none

/-! ## The encoder -/

/-- `OP` of a command (R92). -/
def Instr.opcode : Instr → BitVec 4
  | .reset => 0x1
  | .writeBit _ => 0x2
  | .readBit => 0x3
  | .writeByte _ => 0x4
  | .readByte => 0x5
  | .writeBytes _ => 0x6
  | .readBytes _ => 0x7
  | .convert => 0x8
  | .readTemp => 0x9

/-- `ARG` of a command (R90, R91). -/
def Instr.argument : Instr → Byte
  | .reset => 0
  | .writeBit b => (BitVec.ofBool b).setWidth 8
  | .readBit => 0
  | .writeByte d => d
  | .readByte => 0
  | .writeBytes n => n.setWidth 8
  | .readBytes n => n.setWidth 8
  | .convert => 0
  | .readTemp => 0

/-- The word of a command: `Z` ++ `OP` ++ `ARG` (R90), which is `OP << 8 | ARG` (R102). -/
def encode (i : Instr) : Word := (0#4 ++ i.opcode) ++ i.argument

/-- `Legal(v)`, condition by condition as R100 writes it. -/
def legal (v : Word) : Bool :=
  decide (zField v = 0) &&
    (decide (opField v = 1 ∨ opField v = 3 ∨ opField v = 5 ∨ opField v = 8 ∨ opField v = 9)
        && decide (argField v = 0)
      || decide (opField v = 2) && decide ((argField v).extractLsb' 1 7 = 0)
      || decide (opField v = 4)
      || decide (opField v = 6 ∨ opField v = 7) && decide ((argField v).extractLsb' 4 4 = 0)
        && decide (((argField v).extractLsb' 0 4).toNat ≤ 9))

/-- The columns `match` and `mask` of a command's row in R92. -/
def Instr.matchMask : Instr → Word × Word
  | .reset => (0x0100, 0xFFFF)
  | .writeBit _ => (0x0200, 0xFFFE)
  | .readBit => (0x0300, 0xFFFF)
  | .writeByte _ => (0x0400, 0xFF00)
  | .readByte => (0x0500, 0xFFFF)
  | .writeBytes _ => (0x0600, 0xFFF0)
  | .readBytes _ => (0x0700, 0xFFF0)
  | .convert => (0x0800, 0xFFFF)
  | .readTemp => (0x0900, 0xFFFF)

/-- The ten counts of form `CN`. -/
def counts : List (BitVec 4) := [0, 1, 2, 3, 4, 5, 6, 7, 8, 9]

/-- Every byte value. -/
def allBytes : List Byte := (List.range 256).map (BitVec.ofNat 8)

/-- The legal words in ascending order, as the list of R92 writes them. -/
def legalWords : List Word :=
  [0x0100, 0x0200, 0x0201, 0x0300] ++ allBytes.map (fun d => 0x04#8 ++ d) ++ [0x0500]
    ++ counts.map (fun n => 0x060#12 ++ n) ++ counts.map (fun n => 0x070#12 ++ n)
    ++ [0x0800, 0x0900]

/-! ## Assembler (R102) -/

/-- The word of a mnemonic and its operand, `none` where R102 gives no such line. The operand is a
number: decimal, `0x` and `0b` are three ways of writing one. -/
def assemble : String → Option Nat → Option Word
  | "RESET", none => some (encode .reset)
  | "WRITE_BIT", some x => if x < 2 then some (encode (.writeBit (x == 1))) else none
  | "READ_BIT", none => some (encode .readBit)
  | "WRITE_BYTE", some x => if x < 256 then some (encode (.writeByte (BitVec.ofNat 8 x))) else none
  | "READ_BYTE", none => some (encode .readByte)
  | "WRITE_BYTES", some x => if x ≤ 9 then some (encode (.writeBytes (BitVec.ofNat 4 x))) else none
  | "READ_BYTES", some x => if x ≤ 9 then some (encode (.readBytes (BitVec.ofNat 4 x))) else none
  | "CONVERT", none => some (encode .convert)
  | "READ_TEMP", none => some (encode .readTemp)
  | _, _ => none

/-! ## Words numbered as spec/opcode_table.json numbers them -/

/-- The command word that the low `nbits` bits of `w` are; bits above are 0 (log entry 12). -/
def tableWord (nbits w : Nat) : Word := BitVec.ofNat 16 (w % 2 ^ nbits)

/-- The instruction the decoder reads from a word of the opcode table. -/
def decodeTableWord (nbits w : Nat) : Option Instr := decode (tableWord nbits w)

end Sys2Proof
end

