-- ==== Sys2Proof/Machine/State.lean ====
section
/-! DEFINITION. The state of OWTC (spec/10_state.md R20), the environment as plain data, the reasons to
stop, and the state after hardware reset (R41). -/

namespace Sys2Proof.Machine

/-- The inputs of one tick, free and under no law (00_scope.md R5): `dev` is 1 when some device pulls the
line low (40_bus_bit.md R111), `lineErr` and `lineErrCode` are the fault source's ports
(60_exceptions.md R191). -/
structure TickInput where
  dev : Bool
  lineErr : Bool
  lineErrCode : Byte
  deriving DecidableEq, Repr

/-- One step of an agent of R5, with the data it brings. -/
inductive Action where
  /-- `Tick` with its inputs (40_bus_bit.md R113). -/
  | tick (x : TickInput)
  /-- `RegWrite(a, v)` of the host (20_memory.md R61). -/
  | write (a : Addr) (v : Word)
  /-- `RegRead(a)` of the host (20_memory.md R61). -/
  | read (a : Addr)
  /-- `Reset` (70_reset_and_hazards.md R220). -/
  | reset
  /-- A host write that arrives while `rst` is held: it "has no effect", the block stays in reset
  (70_reset_and_hazards.md R220; log entry 8). -/
  | writeInReset (a : Addr) (v : Word)
  deriving DecidableEq, Repr

/-- The machine. The first block of fields is "all the state of the block" (10_state.md R20), `time` is the
`t` of 00_scope.md R9, and the last three hold the environment (log entries 2, 3, 4). -/
structure State where
  /-- `CMD`, the last accepted command word (R21). -/
  cmd : Word
  /-- `BUSY`: a command is in flight (R23). -/
  busy : Bool
  /-- `DONE`: the last accepted command ran its whole sequence (R24). -/
  done : Bool
  /-- `ERR`: the last accepted command was aborted (R25). -/
  err : Bool
  /-- `PRES`: presence detected (R26). -/
  pres : Bool
  /-- `RBIT`: the last bit read (R27). -/
  rbit : Bool
  /-- `REJ`: a write was refused while `BUSY` (R28). -/
  rej : Bool
  /-- `ILL`: an illegal word was refused (R29). -/
  ill : Bool
  /-- `SR`, the receive register, read as `DATA` (R30). -/
  sr : Byte
  /-- `TEMP`, the raw temperature (R32). -/
  temp : Word
  /-- `ERRCODE`, the code of the last abort (R33). -/
  errcode : Byte
  /-- `BUF[0..8]` (R34). -/
  buf : Buffer
  /-- `drv`, the line driver: true pulls the line low (R35). -/
  drv : Bool
  /-- `k`, the offset of the next tick of the command in flight (R36). -/
  k : Position
  /-- `t`: ticks since the last hardware reset (00_scope.md R9). No rule reads it. -/
  time : Nat
  /-- The environment's coming actions, next first. The model's own. -/
  pending : List Action
  /-- How many free tick inputs have been drawn. The model's own. -/
  draws : Nat
  /-- What the host's reads have returned, latest first. The model's own. -/
  hostReads : List Word
  deriving DecidableEq, Repr

/-- The state right after `Reset` (R41, 70_reset_and_hazards.md R220). The last three fields are the
model's own and start empty (log entries 2, 3, 4). -/
def State.reset : State where
  cmd := 0x0000
  busy := false
  done := false
  err := false
  pres := false
  rbit := false
  rej := false
  ill := false
  sr := 0x00
  temp := 0x0000
  errcode := 0x00
  buf := Vector.replicate 9 0x00
  drv := false
  k := 0
  time := 0
  pending := []
  draws := 0
  hostReads := []

/-- The reasons to stop with a fault. LineIO, IllegalCommand and BusyReject are none of them: each is a
next state (60_exceptions.md R193, R195, R196). -/
inductive Fault where
  /-- Raised by a tick that finds `BUSY` = 1 and in `CMD` a word that is no command. The spec gives such a
  state no plan (40_bus_bit.md R114: "Every legal command word") and no run reaches it
  (10_state.md R31 (d)). Safe. -/
  | illegalInFlight
  deriving DecidableEq, Repr

/-- The reasons to refuse. -/
inductive Refusal where
  /-- Raised by `exec` for an instruction that has no meaning yet; none is left. Safe. -/
  | notModelled (mnemonic : String)
  deriving DecidableEq, Repr

/-- The outcome of a step of this machine. -/
abbrev Outcome := Host.Outcome State Fault Refusal

end Sys2Proof.Machine
end

