-- ==== Sys2Proof/Machine/Slots.lean ====
section
/-! DEFINITION. Line events, the four slots with their event tables, plans as lists of slots, and the
pseudocode the tables come from (spec/40_bus_bit.md R112, R114, R116 to R119). -/

namespace Sys2Proof.Machine

/-- Where the sampled level of an `S` event goes (R115). -/
inductive Dest where
  /-- A slot `RST`: `PRES`. -/
  | presence
  /-- A slot `R(i, j)`: `RBIT`, and by `i` and `j` `SR[i]` and `BUF[j]`. -/
  | bit (i : Option BitIndex) (j : Option BufIndex)
  deriving DecidableEq, Repr

/-- A line event (00_scope.md R10): `L` starts pulling the line low, `H` releases it, `S` samples it. -/
inductive LineEvent where
  | L
  | H
  | S (d : Dest)
  deriving DecidableEq, Repr

/-- A slot (R114). -/
inductive Slot where
  /-- Reset and presence detection (R116). -/
  | rst
  /-- Write one bit (R117, R118). -/
  | w (b : Bool)
  /-- Read one bit (R119). -/
  | r (i : Option BitIndex) (j : Option BufIndex)
  deriving DecidableEq, Repr

/-- The length of a slot in ticks (R116 to R119). -/
def Slot.length : Slot → Nat
  | .rst => Config.tRstL + Config.tPds + Config.tRstRec
  | .w true => Config.tW1L + Config.tW1H
  | .w false => Config.tW0L + Config.tW0H
  | .r _ _ => Config.tRdL + Config.tRdS + Config.tRdRec

/-- For how many ticks from the start of a slot the controller pulls the line low (R116 to R119). -/
def Slot.lowTicks : Slot → Nat
  | .rst => Config.tRstL
  | .w true => Config.tW1L
  | .w false => Config.tW0L
  | .r _ _ => Config.tRdL

/-- The sample of a slot: its offset and its destination. Slots `W(b)` have none (R115). -/
def Slot.sample : Slot → Option (Nat × Dest)
  | .rst => some (Config.tRstL + Config.tPds, .presence)
  | .w _ => none
  | .r i j => some (Config.tRdL + Config.tRdS, .bit i j)

/-- The event tables of R116 to R119: `L` at offset 0, `H` when the low phase ends, `S` at the sample. -/
def Slot.event (sl : Slot) (o : Nat) : Option LineEvent :=
  if o = 0 then some .L
  else if o = sl.lowTicks then some .H
  else match sl.sample with
    | some (at_, d) => if o = at_ then some (.S d) else none
    | none => none

/-- The length of a plan: slots follow one another with no tick between them (R114). -/
def planLength : List Slot → Nat
  | [] => 0
  | sl :: rest => sl.length + planLength rest

/-- `ev` of a plan at an offset (R114): the entry of the slot the offset lies in. -/
def eventAt : List Slot → Nat → Option LineEvent
  | [], _ => none
  | sl :: rest, o => if o < sl.length then sl.event o else eventAt rest (o - sl.length)

/-- Whether the controller pulls the line low at an offset of a plan that no abort cuts short: the
column "`drv` from this tick" of R116 to R119. -/
def lowAt : List Slot → Nat → Bool
  | [], _ => false
  | sl :: rest, o => if o < sl.length then decide (o < sl.lowTicks) else lowAt rest (o - sl.length)

/-! ## Pseudocode and its meaning in ticks (00_scope.md R10, R112) -/

/-- A primitive of a command's pseudocode (00_scope.md R10). -/
inductive Prim where
  | driveLow
  | release
  | sample (d : Dest)
  | wait (n : Nat)
  deriving DecidableEq, Repr

/-- The pseudocode of a slot (R116 to R119). -/
def Slot.pseudocode : Slot → List Prim
  | .rst => [.driveLow, .wait Config.tRstL, .release, .wait Config.tPds, .sample .presence,
      .wait Config.tRstRec]
  | .w true => [.driveLow, .wait Config.tW1L, .release, .wait Config.tW1H]
  | .w false => [.driveLow, .wait Config.tW0L, .release, .wait Config.tW0H]
  | .r i j => [.driveLow, .wait Config.tRdL, .release, .wait Config.tRdS, .sample (.bit i j),
      .wait Config.tRdRec]

/-- The pseudocode of a plan. -/
def pseudocode (p : List Slot) : List Prim := p.flatMap Slot.pseudocode

/-- The line events of a pseudocode with their offsets, `c` ticks having been waited before it (R112). -/
def timedEvents : Nat → List Prim → List (Nat × LineEvent)
  | _, [] => []
  | c, .driveLow :: rest => (c, .L) :: timedEvents c rest
  | c, .release :: rest => (c, .H) :: timedEvents c rest
  | c, .sample d :: rest => (c, .S d) :: timedEvents c rest
  | c, .wait n :: rest => timedEvents (c + n) rest

/-- The length of a pseudocode: the sum of its waits (R112). -/
def waitTotal : List Prim → Nat
  | [] => 0
  | .wait n :: rest => n + waitTotal rest
  | .driveLow :: rest => waitTotal rest
  | .release :: rest => waitTotal rest
  | .sample _ :: rest => waitTotal rest

end Sys2Proof.Machine
end

