-- ==== Sys2Proof/Machine/Operands.lean ====
section
/-! DEFINITION. The operand forms: the bits of a byte in wire order, the slots of a written and of a read
byte, the counted byte sequences of the buffer, and access to `BUF` and to one bit of a byte
(spec/30_encoding.md R91, 40_bus_bit.md R114, 20_memory.md R71, R72). -/

namespace Sys2Proof.Machine

/-- Bit indices in the order of the wire: least significant first (20_memory.md R71). -/
def wireOrder : List BitIndex := [0, 1, 2, 3, 4, 5, 6, 7]

/-- Buffer indices in the order of the wire: byte 0 first (20_memory.md R72). -/
def bufOrder : List BufIndex := [0, 1, 2, 3, 4, 5, 6, 7, 8]

/-- Bit `i` of a byte. -/
def bitOf (d : Byte) (i : BitIndex) : Bool := d.getLsbD i.val

/-- `d` with bit `i` replaced: `SR[i] <- b` (41_bus_byte.md R152). -/
def setBit (d : Byte) (i : BitIndex) (b : Bool) : Byte :=
  (d &&& ~~~(1#8 <<< i.val)) ||| ((BitVec.ofBool b).setWidth 8 <<< i.val)

/-- `BUF[j]` (00_scope.md R10). -/
def bufGet (m : Buffer) (j : BufIndex) : Byte := m[j.val]

/-- `BUF[j] <- v` (00_scope.md R10). -/
def bufSet (m : Buffer) (j : BufIndex) (v : Byte) : Buffer := m.set j.val v

/-- `WB(d)`: the eight slots of a written byte (40_bus_bit.md R114). -/
def writeByteSlots (d : Byte) : List Slot := wireOrder.map fun i => .w (bitOf d i)

/-- `RB(j)`: the eight slots of a read byte (40_bus_bit.md R114). -/
def readByteSlots (j : Option BufIndex) : List Slot := wireOrder.map fun i => .r (some i) j

/-- `BUF[0], .., BUF[n-1]` as indices, for the operand `n` of form `CN` (30_encoding.md R91). -/
def countedIndices (n : BitVec 4) : List BufIndex := bufOrder.take n.toNat

end Sys2Proof.Machine
end

