-- ==== Sys2Proof/Machine/Flags.lean ====
section
/-! DEFINITION. The STATUS flags: how they are assembled into the register (spec/10_state.md R22) and every
way they change other than a sample: acceptance, completion, abort, the two refusals (20_memory.md R64,
R66, 40_bus_bit.md R113, 60_exceptions.md R193, R195, R196). -/

namespace Sys2Proof.Machine

/-- `STATUS = zext_16(ILL ++ REJ ++ RBIT ++ PRES ++ ERR ++ DONE ++ BUSY)` (10_state.md R22). -/
def statusWord (s : State) : Word :=
  (BitVec.ofBool s.ill ++ BitVec.ofBool s.rej ++ BitVec.ofBool s.rbit ++ BitVec.ofBool s.pres
    ++ BitVec.ofBool s.err ++ BitVec.ofBool s.done ++ BitVec.ofBool s.busy).setWidth 16

/-- The flags at acceptance of a command (20_memory.md R64): `DONE`, `ERR`, `REJ`, `ILL` cleared, then
`DONE` set where the command has length 0, `BUSY` otherwise. -/
def State.flagsAccepted (s : State) (length : Nat) : State :=
  { s with
    err := false
    rej := false
    ill := false
    done := decide (length = 0)
    busy := decide (length ≠ 0) }

/-- The flags at completion (40_bus_bit.md R113). -/
def State.flagsCompleted (s : State) : State := { s with busy := false, done := true }

/-- The flags at abort (60_exceptions.md R193). `DONE` stays as it is. -/
def State.flagsAborted (s : State) : State := { s with err := true, busy := false }

/-- `BusyReject` (60_exceptions.md R196). -/
def State.rejectBusy (s : State) : State := { s with rej := true }

/-- `IllegalCommand` (60_exceptions.md R195). -/
def State.refuseIllegal (s : State) : State := { s with ill := true }

end Sys2Proof.Machine
end

