-- ==== Sys2Proof/Machine/Ops.lean ====
section
/-! DEFINITION. The named operations: the line and its events, the writes of a sample, completion and
advance, the abort (the block's one trap entry), the issue of a command, and hardware reset. -/

namespace Sys2Proof.Machine

/-! ## The line (spec/40_bus_bit.md R110, R111) -/

/-- A level of the line (00_scope.md R9). -/
inductive Level where
  | low
  | high
  deriving DecidableEq, Repr

/-- The level of the line in a tick: low when the controller or a device pulls it low (R111). -/
def lineLevel (drv dev : Bool) : Level := if drv || dev then .low else .high

/-- The output port `ow_drv_low`, which always equals `drv` (R110). -/
def owDrvLow (s : State) : Bool := s.drv

/-- The input port `ow_in` of a tick: 1 when the line is high (R111). `s` is the state after the
controller's step of that tick. -/
def owIn (s : State) (dev : Bool) : Bool := decide (lineLevel s.drv dev = .high)

/-! ## Events (R113, R115) -/

/-- The writes of an `S` event by its destination (R115). `BUF[j]` takes the `SR` just updated. -/
def State.sampled (s : State) (d : Dest) (lvl : Level) : State :=
  match d with
  | .presence => { s with pres := decide (lvl = .low) }
  | .bit none _ => { s with rbit := decide (lvl = .high) }
  | .bit (some i) j =>
    let sr' := setBit s.sr i (decide (lvl = .high))
    let buf' := match j with
      | some j => if i = 7 then bufSet s.buf j sr' else s.buf
      | none => s.buf
    { s with rbit := decide (lvl = .high), sr := sr', buf := buf' }

/-- Perform a line event in a tick with device bit `dev` (R113). -/
def State.performEvent (s : State) (dev : Bool) : LineEvent → State
  | .L => { s with drv := true }
  | .H => { s with drv := false }
  | .S d => s.sampled d (lineLevel s.drv dev)

/-! ## The end of a tick (R113) -/

/-- `TEMP <- BUF[1] ++ BUF[0]` (42_sensor.md R174). -/
def decodedWord (m : Buffer) : Word := bufGet m 1 ++ bufGet m 0

/-- Completion: `BUSY <- 0 ; DONE <- 1 ; k <- 0`, and for operation 9 `TEMP` (R113). -/
def State.complete (s : State) : State :=
  { s.flagsCompleted with
    k := 0
    temp := if opField s.cmd = 9 then decodedWord s.buf else s.temp }

/-- The last part of `Tick` for a command of length `length`: completion at the last offset, else
`k <- k + 1` (R113). -/
def State.advance (s : State) (length : Nat) : State :=
  if s.k.toNat + 1 = length then s.complete else { s with k := s.k + 1 }

/-! ## Taking the abort (60_exceptions.md R193) -/

/-- `raise LineIO(code)`: the line is released, the code recorded, the command ended; nothing else. There
is no handler and no return (R193, R198). -/
def State.raiseLineIO (s : State) (code : Byte) : State :=
  { s.flagsAborted with drv := false, errcode := code, k := 0 }

/-- `Tick` while a command with plan `p` is in flight (40_bus_bit.md R113): the abort test comes before the
event and before the completion test (60_exceptions.md R197). -/
def State.tickPlan (s : State) (p : List Slot) (x : TickInput) : State :=
  match eventAt p s.k.toNat with
  | some e =>
    if x.lineErr then s.raiseLineIO x.lineErrCode
    else (s.performEvent x.dev e).advance (planLength p)
  | none => s.advance (planLength p)

/-! ## Issuing a command (20_memory.md R64) -/

/-- An accepted command: `CMD <- v`, the flags, `k <- 0` (R64). -/
def State.accept (s : State) (v : Word) (length : Nat) : State :=
  { s.flagsAccepted length with cmd := v, k := 0 }

/-- The host writes the word of `i`, whose plan is `p`, to `CMD` (R64): refused while `BUSY`; refused when
the word is not legal, which is when the term `i` is ill formed (log entry 9); accepted otherwise. -/
def State.issue (s : State) (i : Instr) (p : List Slot) : State :=
  if s.busy then s.rejectBusy
  else if i.wellFormed then s.accept (encode i) (planLength p)
  else s.refuseIllegal

/-! ## Hardware reset (70_reset_and_hazards.md R220) -/

/-- `Reset`: every item of the block's state to its reset value, `t` restarts at 0. The environment's
schedule and what the host has read are not the block's and stay (log entries 2, 3, 4). -/
def State.hardwareReset (s : State) : State :=
  { State.reset with pending := s.pending, draws := s.draws, hostReads := s.hostReads }

/-- One tick of time passes (00_scope.md R9). -/
def State.tickTime (s : State) : State := { s with time := s.time + 1 }

end Sys2Proof.Machine
end

