-- ==== Sys2Proof/Machine/BusBit.lean ====
section
/-! DEFINITION. The bit-level commands RESET, WRITE_BIT, READ_BIT (spec/40_bus_bit.md R120 to R122): the plan
of each (R114) and its meaning, the host's write of its word to `CMD` (30_encoding.md R102, 20_memory.md
R64). -/

namespace Sys2Proof.Machine

/-- `Plan(RESET) := [ RST ]`. -/
def planReset : List Slot := [.rst]

/-- `Plan(WRITE_BIT b) := [ W(b) ]`. -/
def planWriteBit (b : Bool) : List Slot := [.w b]

/-- `Plan(READ_BIT) := [ R(none, none) ]`. -/
def planReadBit : List Slot := [.r none none]

/-- RESET (R120). -/
def execReset (s : State) : Outcome := .next (s.issue .reset planReset)

/-- WRITE_BIT b (R121). -/
def execWriteBit (b : Bool) (s : State) : Outcome := .next (s.issue (.writeBit b) (planWriteBit b))

/-- READ_BIT (R122). -/
def execReadBit (s : State) : Outcome := .next (s.issue .readBit planReadBit)

end Sys2Proof.Machine
end

