-- ==== Sys2Proof/Machine/BusByte.lean ====
section
/-! DEFINITION. The byte-level commands WRITE_BYTE, READ_BYTE, WRITE_BYTES, READ_BYTES (spec/41_bus_byte.md R153
to R156): the plan of each (40_bus_bit.md R114) and its meaning, the host's write of its word to `CMD`. -/

namespace Sys2Proof.Machine

/-- `Plan(WRITE_BYTE d) := WB(d)`. -/
def planWriteByte (d : Byte) : List Slot := writeByteSlots d

/-- `Plan(READ_BYTE) := RB(none)`. -/
def planReadByte : List Slot := readByteSlots none

/-- `Plan(WRITE_BYTES n) := WB(BUF[0]) ++ ... ++ WB(BUF[n-1])`. -/
def planWriteBytes (n : BitVec 4) (m : Buffer) : List Slot :=
  (countedIndices n).flatMap fun j => writeByteSlots (bufGet m j)

/-- `Plan(READ_BYTES n) := RB(0) ++ ... ++ RB(n-1)`. -/
def planReadBytes (n : BitVec 4) : List Slot :=
  (countedIndices n).flatMap fun j => readByteSlots (some j)

/-- WRITE_BYTE d (R153). -/
def execWriteByte (d : Byte) (s : State) : Outcome := .next (s.issue (.writeByte d) (planWriteByte d))

/-- READ_BYTE (R154). -/
def execReadByte (s : State) : Outcome := .next (s.issue .readByte planReadByte)

/-- WRITE_BYTES n (R155). -/
def execWriteBytes (n : BitVec 4) (s : State) : Outcome :=
  .next (s.issue (.writeBytes n) (planWriteBytes n s.buf))

/-- READ_BYTES n (R156). -/
def execReadBytes (n : BitVec 4) (s : State) : Outcome :=
  .next (s.issue (.readBytes n) (planReadBytes n))

end Sys2Proof.Machine
end

