-- ==== Sys2Proof/Machine/Sensor.lean ====
section
/-! DEFINITION. The sensor commands CONVERT and READ_TEMP (spec/42_sensor.md R172, R173): the plan of each
(40_bus_bit.md R114) and its meaning, the host's write of its word to `CMD`; and the reading of `TEMP` as a
temperature (R175). -/

namespace Sys2Proof.Machine

/-- `Plan(CONVERT) := [ RST ] ++ WB(0xCC) ++ WB(0x44)`. -/
def planConvert : List Slot :=
  [.rst] ++ writeByteSlots Config.cmdSkip ++ writeByteSlots Config.cmdConvert

/-- `Plan(READ_TEMP) := [ RST ] ++ WB(0xCC) ++ WB(0xBE) ++ RB(0) ++ ... ++ RB(8)`. -/
def planReadTemp : List Slot :=
  [.rst] ++ writeByteSlots Config.cmdSkip ++ writeByteSlots Config.cmdReadScratch
    ++ bufOrder.flatMap fun j => readByteSlots (some j)

/-- CONVERT (R172). -/
def execConvert (s : State) : Outcome := .next (s.issue .convert planConvert)

/-- READ_TEMP (R173). -/
def execReadTemp (s : State) : Outcome := .next (s.issue .readTemp planReadTemp)

/-- The decoded temperature: `TEMP`, unsigned, in sixteenths (R175, R176, R180). The hardware holds `TEMP`;
the division is the host's. -/
def degrees (temp : Word) : Rat := (temp.toNat : Rat) / (2 ^ Config.tempFracBits : Nat)

end Sys2Proof.Machine
end

