-- ==== Sys2Proof/Machine/Dispatch.lean ====
section
/-! DEFINITION. The meaning of every command, one arm per constructor. -/

namespace Sys2Proof.Machine

-- "The mnemonic alone means: the host writes that word to CMD" (spec/30_encoding.md R102, log entry 1).
def exec (i : Instr) (s : State) : Host.Outcome State Fault Refusal :=
  match i with
  | .reset => Sys2Proof.Machine.execReset s
  | .writeBit b => Sys2Proof.Machine.execWriteBit b s
  | .readBit => Sys2Proof.Machine.execReadBit s
  | .writeByte d => Sys2Proof.Machine.execWriteByte d s
  | .readByte => Sys2Proof.Machine.execReadByte s
  | .writeBytes n => Sys2Proof.Machine.execWriteBytes n s
  | .readBytes n => Sys2Proof.Machine.execReadBytes n s
  | .convert => Sys2Proof.Machine.execConvert s
  | .readTemp => Sys2Proof.Machine.execReadTemp s

end Sys2Proof.Machine
end

