-- ==== Sys2Proof/Machine/Tick.lean ====
section
/-! DEFINITION. The plan of a command and the controller's step `Tick` (spec/40_bus_bit.md R113, R114), the
phases of the document's state machine (10_state.md R37), and runs of ticks (30_encoding.md R103). -/

namespace Sys2Proof.Machine

/-- `Plan(v, BUF)` of a command (R114). -/
def plan (i : Instr) (m : Buffer) : List Slot :=
  match i with
  | .reset => planReset
  | .writeBit b => planWriteBit b
  | .readBit => planReadBit
  | .writeByte d => planWriteByte d
  | .readByte => planReadByte
  | .writeBytes n => planWriteBytes n m
  | .readBytes n => planReadBytes n
  | .convert => planConvert
  | .readTemp => planReadTemp

/-- `Tick(dev, line_err, line_err_code)` (R113). Idle, only time passes. Busy, the command in `CMD` advances
by one offset; `CMD` is read anew on every tick (10_state.md R21). `BUSY` with an illegal `CMD` has no plan
and stops (log entry 6). -/
def tick (x : TickInput) (s : State) : Outcome :=
  if s.busy then
    match decode s.cmd with
    | some i => .next (s.tickPlan (plan i s.buf) x).tickTime
    | none => .fault .illegalInFlight
  else .next s.tickTime

/-- A state of the document's state machine (10_state.md R37). -/
inductive Phase where
  | idle
  /-- One of the seven Bus Engine commands, which have one phase only. -/
  | busEngine
  | resetPresence
  | commandSkip
  | commandSecond
  /-- The data phase, reading byte `j`. -/
  | data (j : Nat)
  deriving DecidableEq, Repr

/-- The phase of a state, a range of `k` (10_state.md R37). -/
def phase (s : State) : Phase :=
  if s.busy then
    if opField s.cmd = 8 ∨ opField s.cmd = 9 then
      if s.k.toNat < 960 then .resetPresence
      else if s.k.toNat < 1448 then .commandSkip
      else if s.k.toNat < 1936 then .commandSecond
      else .data ((s.k.toNat - 1936) / 488)
    else .busEngine
  else .idle

/-- `TICKS n` of R103: ticks pass with no host action, one for each input given. -/
def runTicks : List TickInput → State → Outcome
  | [], s => .next s
  | x :: rest, s =>
    match tick x s with
    | .next t => runTicks rest t
    | .fault f => .fault f
    | .refused r => .refused r

/-- The `drv` trace of a run of ticks: what `ow_drv_low` shows in each of them (40_bus_bit.md R110). It ends
where the machine stops. -/
def drvTrace : List TickInput → State → List Bool
  | [], _ => []
  | x :: rest, s =>
    match tick x s with
    | .next t => owDrvLow t :: drvTrace rest t
    | .fault _ => []
    | .refused _ => []

/-- `POLL` of R103: ticks pass with no host action until `BUSY` = 0, none if it is 0 already. It stops early
where the inputs given run out. -/
def poll : List TickInput → State → Outcome
  | [], s => .next s
  | x :: rest, s =>
    if s.busy then
      match tick x s with
      | .next t => poll rest t
      | .fault f => .fault f
      | .refused r => .refused r
    else .next s

end Sys2Proof.Machine
end

