-- ==== Sys2Proof/Machine/Port.lean ====
section
/-! DEFINITION. The register port (spec/20_memory.md R60 to R70): the address map, `RegRead`, `RegWrite`, and
the performance of one action of an agent (00_scope.md R5). -/

namespace Sys2Proof.Machine

/-- What stands at an address (R62). -/
inductive PortReg where
  | cmd
  | status
  | data
  | temp
  | errcode
  | buf (j : BufIndex)
  | reserved
  deriving DecidableEq, Repr

/-- The address map (R62). -/
def portReg (a : Addr) : PortReg :=
  match a.toNat with
  | 0x00 => .cmd
  | 0x01 => .status
  | 0x02 => .data
  | 0x03 => .temp
  | 0x04 => .errcode
  | 0x10 => .buf 0
  | 0x11 => .buf 1
  | 0x12 => .buf 2
  | 0x13 => .buf 3
  | 0x14 => .buf 4
  | 0x15 => .buf 5
  | 0x16 => .buf 6
  | 0x17 => .buf 7
  | 0x18 => .buf 8
  | _ => .reserved

/-- The value of a register, zero-extended to 16 bits (R63, R70); a reserved address reads 0 (R67). -/
def portValue (s : State) : PortReg → Word
  | .cmd => s.cmd
  | .status => statusWord s
  | .data => s.sr.setWidth 16
  | .temp => s.temp
  | .errcode => s.errcode.setWidth 16
  | .buf j => (bufGet s.buf j).setWidth 16
  | .reserved => 0

/-- What `RegRead(a)` returns (R63). -/
def regRead (a : Addr) (s : State) : Word := portValue s (portReg a)

/-- `RegRead(a)`: the block's state does not change (R63); the host has what it read (log entry 4). -/
def hostRead (a : Addr) (s : State) : Outcome :=
  .next { s with hostReads := regRead a s :: s.hostReads }

/-- `RegWrite(0x00, v)` (R64). A legal word is a command and `exec` is its issue, the busy test within; an
illegal one is refused, by the busy test first. -/
def writeCmd (v : Word) (s : State) : Outcome :=
  match decode v with
  | some i => exec i s
  | none => .next (if s.busy then s.rejectBusy else s.refuseIllegal)

/-- `RegWrite(0x10 + j, v)` (R66). -/
def writeBuf (j : BufIndex) (v : Word) (s : State) : Outcome :=
  .next (if s.busy then s.rejectBusy else { s with buf := bufSet s.buf j (v.setWidth 8) })

/-- `RegWrite(a, v)` (R64 to R67). -/
def regWrite (a : Addr) (v : Word) (s : State) : Outcome :=
  match portReg a with
  | .cmd => writeCmd v s
  | .status => .next s
  | .data => .next s
  | .temp => .next s
  | .errcode => .next s
  | .buf j => writeBuf j v s
  | .reserved => .next s

/-- The inputs of the `n`-th tick that the schedule does not hold (log entry 3). -/
def freeTick (n : Nat) : TickInput :=
  { dev := Config.freeDev n, lineErr := Config.freeLineErr n, lineErrCode := Config.freeLineErrCode n }

/-- One action of an agent (00_scope.md R5). -/
def perform (a : Action) (s : State) : Outcome :=
  match a with
  | .tick x => tick x s
  | .write a v => regWrite a v s
  | .read a => hostRead a s
  | .reset => .next s.hardwareReset
  | .writeInReset _ _ => .next s.hardwareReset

/-- The next action: the head of the schedule, taken off it; a tick with free inputs where nothing is
scheduled (log entries 2, 3). -/
def nextAction (s : State) : Action × State :=
  match s.pending with
  | a :: rest => (a, { s with pending := rest })
  | [] => (.tick (freeTick s.draws), { s with draws := s.draws + 1 })

/-- The host's write of a command word placed at the head of the schedule. -/
def scheduleCommand (v : Word) (s : State) : State :=
  { s with pending := .write 0x00 v :: s.pending }

end Sys2Proof.Machine
end

