-- ==== Sys2Proof/Machine/Step.lean ====
section
/-! DEFINITION. One step of the machine: the next action of an agent (spec/00_scope.md R5). -/

namespace Sys2Proof.Machine

/-- One step: the next action of the schedule, or a tick with free inputs where there is none. -/
def step (s : State) : Host.Outcome State Fault Refusal :=
  perform (nextAction s).1 (nextAction s).2

/-- `s` with the write of a command word as the next action: the block fetches nothing (20_memory.md R75), a
command comes in by the host's write of `CMD` (log entries 1, 12). -/
def State.withFetchWord (s : State) (nbits w : Nat) : State :=
  scheduleCommand (tableWord nbits w) s

end Sys2Proof.Machine
end

