-- ==== Sys2Proof/Safety.lean ====
section
/-! DEFINITION. The terms claims are made in: the invariants of spec/10_state.md R31, the command in flight,
inputs without failure, and what the samples of a run of ticks are. -/

namespace Sys2Proof.Machine

/-! ## The invariants of R31 -/

/-- What holds after every step (R31): (a) to (d) as the rule numbers them, (d) with the fact it rests on,
that `CMD` in flight is a command; and (f) in two fields, `CMD` = 0x0000 saying that no command has been
accepted since reset, since 0x0000 is no legal word (30_encoding.md R100). The fields `drive` and `cmd_legal`
are added to make it inductive (log entry 15). -/
structure State.Inv (s : State) : Prop where
  /-- (a) -/
  busy_excludes_result : s.busy = true → s.done = false ∧ s.err = false
  /-- (b) -/
  one_result : ¬ (s.done = true ∧ s.err = true)
  /-- (c) -/
  idle_released : s.busy = false → s.drv = false ∧ s.k = 0
  /-- (d) -/
  in_flight : s.busy = true → ∃ i, decode s.cmd = some i ∧ s.k.toNat < planLength (plan i s.buf)
  /-- While a command is in flight the line driver is as the slots of its plan have it at the offset of the
  latest tick (40_bus_bit.md R116 to R119), and released before the first. (c) rests on it: every plan ends
  with the line released. -/
  drive : s.busy = true → ∀ i, decode s.cmd = some i →
    s.drv = (decide (0 < s.k.toNat) && lowAt (plan i s.buf) (s.k.toNat - 1))
  /-- `CMD` holds the last accepted word, 0x0000 before there is one (R21). -/
  cmd_legal : s.cmd = 0 ∨ legal s.cmd = true
  /-- (f), before the first accepted command. -/
  fresh : s.cmd = 0 → s.busy = false ∧ s.done = false ∧ s.err = false
  /-- (f), from the end of the first command onward. -/
  ended : s.cmd ≠ 0 → s.busy = false → (s.done = true ↔ s.err = false)

/-! ## Actions -/

/-- The action is a `Reset` step (70_reset_and_hazards.md R220). -/
def Action.isReset : Action → Bool
  | .tick _ => false
  | .write _ _ => false
  | .read _ => false
  | .reset => true
  | .writeInReset _ _ => true

/-- The action is a tick. -/
def Action.isTick : Action → Bool
  | .tick _ => true
  | .write _ _ => false
  | .read _ => false
  | .reset => false
  | .writeInReset _ _ => false

/-! ## Inputs of a run, by offset. The first input is that of offset 0. -/

/-- No line operation of the plan fails: `line_err` = 0 in every tick that has an event (60_exceptions.md
R191). In the other ticks it is free. -/
def Clean (p : List Slot) (ins : List TickInput) : Prop :=
  ∀ o x, ins[o]? = some x → eventAt p o ≠ none → x.lineErr = false

/-- `dev` at an offset. -/
def devAt (ins : List TickInput) (o : Nat) : Bool :=
  match ins[o]? with
  | some x => x.dev
  | none => false

/-- The bit that a read slot's sample at an offset gives: 1 for high, and the line is high when no device
pulls it low, the controller having released it (40_bus_bit.md R119). -/
def bitAt (ins : List TickInput) (o : Nat) : Bool := !devAt ins o

/-- The byte that eight read slots from offset `base` give: the bit sampled in slot `i`, at `61 i + 21`, is
bit `i` (41_bus_byte.md R151, R152). -/
def byteAt (ins : List TickInput) (base : Nat) : Byte :=
  BitVec.ofBool (bitAt ins (base + 448)) ++ BitVec.ofBool (bitAt ins (base + 387))
    ++ BitVec.ofBool (bitAt ins (base + 326)) ++ BitVec.ofBool (bitAt ins (base + 265))
    ++ BitVec.ofBool (bitAt ins (base + 204)) ++ BitVec.ofBool (bitAt ins (base + 143))
    ++ BitVec.ofBool (bitAt ins (base + 82)) ++ BitVec.ofBool (bitAt ins (base + 21))

/-- The state in which a command of length `length` ends: `s` when it was issued, `word` the command word
(40_bus_bit.md R113, 20_memory.md R64). Results the command delivers are written over it. -/
def State.afterCommand (s : State) (word : Word) (length : Nat) : State :=
  { s with
    cmd := word, busy := false, done := true, err := false, rej := false, ill := false,
    k := 0, drv := false, time := s.time + length }

/-! ## Two runs that differ only in what devices do -/

/-- Two states agree on everything that decides what the controller drives: all but the results of samples,
and of `BUF` what a written sequence reads (42_sensor.md R178, 40_bus_bit.md R114). -/
structure SameDrive (s t : State) : Prop where
  cmd : s.cmd = t.cmd
  busy : s.busy = t.busy
  done : s.done = t.done
  err : s.err = t.err
  errcode : s.errcode = t.errcode
  drv : s.drv = t.drv
  k : s.k = t.k
  buf : opField s.cmd = 6 → s.buf = t.buf

/-- Two tick inputs that differ at most in `dev`. -/
def SameFaults (x y : TickInput) : Prop := x.lineErr = y.lineErr ∧ x.lineErrCode = y.lineErrCode

end Sys2Proof.Machine
end

