-- ==== Sys2Proof/Certificates/Slice0/Obligations.lean ====
section
/-! DEFINITION. The statements for the provers. Each docstring says which rule of spec/ it formalises. -/

open Sys2Proof Sys2Proof.Machine

/-! ## Reset -/

/-- R41: after hardware reset every item of the table of R20 has the value of its last column, and `t` of R9
is 0 (R220). -/
def Obligations.ResetStateIsAllZero : Prop :=
  State.reset.cmd = 0x0000 ∧ State.reset.busy = false ∧ State.reset.done = false ∧
  State.reset.err = false ∧ State.reset.pres = false ∧ State.reset.rbit = false ∧
  State.reset.rej = false ∧ State.reset.ill = false ∧ State.reset.sr = 0x00 ∧
  State.reset.temp = 0x0000 ∧ State.reset.errcode = 0x00 ∧ (∀ j, bufGet State.reset.buf j = 0x00) ∧
  State.reset.drv = false ∧ State.reset.k = 0 ∧ State.reset.time = 0

/-- R220, R221, R223: a `Reset` step, whatever is in flight, sets every item of state to its reset value and
restarts `t`; so does a host write that arrives while `rst` is held. No flag records it. What the
environment goes on to do and what the host has read are not the block's (log entries 2 to 4). -/
def Obligations.HardwareResetFromAnyState : Prop :=
  ∀ (s : State) (rest : List Action) (a : Addr) (v : Word),
    (s.pending = .reset :: rest →
      step s = .next { State.reset with pending := rest, draws := s.draws, hostReads := s.hostReads }) ∧
    (s.pending = .writeInReset a v :: rest →
      step s = .next { State.reset with pending := rest, draws := s.draws, hostReads := s.hostReads })

/-! ## Encoding -/

/-- R90 to R92: decoding the word of a well-formed command gives the command back, every operand at every
value. -/
def Obligations.DecodeOfEncodeIsTheCommand : Prop :=
  ∀ i : Instr, i.wellFormed = true → decode (encode i) = some i

/-- R94: a word decodes to one command only, the one whose word it is, and that command is well formed. -/
def Obligations.EncodeOfDecodeIsTheWord : Prop :=
  ∀ (v : Word) (i : Instr), decode v = some i → encode i = v ∧ i.wellFormed = true

/-- R100: the legal words, condition by condition as the rule writes them, are those for which `Legal` holds,
and they are exactly the words the decoder reads a command from; every other word is illegal. -/
def Obligations.DecoderAcceptsExactlyTheLegalWords : Prop :=
  ∀ v : Word,
    (legal v = true ↔ v.extractLsb' 12 4 = 0 ∧
      ((v.extractLsb' 8 4 ∈ [1, 3, 5, 8, 9] ∧ v.extractLsb' 0 8 = 0) ∨
        (v.extractLsb' 8 4 = 2 ∧ v.extractLsb' 1 7 = 0) ∨ v.extractLsb' 8 4 = 4 ∨
        (v.extractLsb' 8 4 ∈ [6, 7] ∧ v.extractLsb' 4 4 = 0 ∧ (v.extractLsb' 0 4).toNat ≤ 9))) ∧
    (legal v = true ↔ ∃ i, decode v = some i) ∧ (legal v = false ↔ decode v = none)

/-- R92: a word is legal exactly when, for some command, `v & mask = match` with the columns of the
command's row and, in the two rows of form `CN`, the count in `v[3:0]` is at most 9; and the legal words are
the 283 of the rule's list. -/
def Obligations.LegalWordsAreThe283OfTheTable : Prop :=
  (∀ v : Word, legal v = true ↔
    v &&& 0xFFFF = 0x0100 ∨ v &&& 0xFFFE = 0x0200 ∨ v &&& 0xFFFF = 0x0300 ∨ v &&& 0xFF00 = 0x0400 ∨
    v &&& 0xFFFF = 0x0500 ∨ (v &&& 0xFFF0 = 0x0600 ∧ (v &&& 0x000F).toNat ≤ 9) ∨
    (v &&& 0xFFF0 = 0x0700 ∧ (v &&& 0x000F).toNat ≤ 9) ∨ v &&& 0xFFFF = 0x0800 ∨
    v &&& 0xFFFF = 0x0900) ∧
  (∀ v : Word, legal v = true ↔ v ∈ legalWords) ∧ legalWords.Nodup ∧ legalWords.length = 283

/-- R92, R102: words written out from the table decode to the commands they stand for. -/
def Obligations.WordsOfTheTableDecode : Prop :=
  decode 0b0000000100000000 = some .reset ∧ decode 0b0000001000000000 = some (.writeBit false) ∧
  decode 0b0000001000000001 = some (.writeBit true) ∧ decode 0b0000001100000000 = some .readBit ∧
  decode 0b0000010011001100 = some (.writeByte 0xCC) ∧ decode 0b0000010100000000 = some .readByte ∧
  decode 0b0000011000000010 = some (.writeBytes 2) ∧ decode 0b0000011100001001 = some (.readBytes 9) ∧
  decode 0b0000100000000000 = some .convert ∧ decode 0b0000100100000000 = some .readTemp

/-! ## A step -/

/-- R102: when the next action is the host's write of a command word to `CMD`, the step is `exec` of the
command the word decodes to, the action taken off the schedule. -/
def Obligations.StepRunsTheDecodedCommand : Prop :=
  ∀ (s : State) (v : Word) (rest : List Action) (i : Instr),
    s.pending = .write 0x00 v :: rest → decode v = some i →
    step s = exec i { s with pending := rest }

/-- R5: the step performs the scheduled action of the agent whose turn it is; where nothing is scheduled it
is the controller's `Tick` with free inputs (the model's choice, log entries 2 and 3). -/
def Obligations.StepPerformsTheNextAction : Prop :=
  ∀ (s : State) (x : TickInput) (a : Addr) (v : Word) (rest : List Action),
    (s.pending = .tick x :: rest → step s = tick x { s with pending := rest }) ∧
    (s.pending = .write a v :: rest → step s = regWrite a v { s with pending := rest }) ∧
    (s.pending = .read a :: rest → step s = hostRead a { s with pending := rest }) ∧
    (s.pending = [] → step s = tick
      { dev := Config.freeDev s.draws, lineErr := Config.freeLineErr s.draws,
        lineErrCode := Config.freeLineErrCode s.draws }
      { s with draws := s.draws + 1 })

/-! ## Issuing a command -/

/-- R64: the write of `CMD`, its three branches. The acceptance branch writes `CMD`, the four flags, `k` and
`BUSY` and leaves everything else. -/
def Obligations.CommandWriteHasThreeOutcomes : Prop :=
  ∀ (s : State) (v : Word),
    (s.busy = true → regWrite 0x00 v s = .next { s with rej := true }) ∧
    (s.busy = false → legal v = false → regWrite 0x00 v s = .next { s with ill := true }) ∧
    (s.busy = false → legal v = true → ∃ i, decode v = some i ∧
      (planLength (plan i s.buf) ≠ 0 → regWrite 0x00 v s = .next
        { s with cmd := v, done := false, err := false, rej := false, ill := false, k := 0,
                 busy := true }) ∧
      (planLength (plan i s.buf) = 0 → regWrite 0x00 v s = .next
        { s with cmd := v, done := true, err := false, rej := false, ill := false, k := 0 }))

/-- R64 for the commands that have ticks: each is accepted by an idle block, and nothing but `CMD`, the
flags, `k` and `BUSY` changes. Frame and completion of the issue of RESET, WRITE_BIT, READ_BIT, WRITE_BYTE,
READ_BYTE, CONVERT, READ_TEMP, and of WRITE_BYTES and READ_BYTES with a count of 1 to 9. -/
def Obligations.IdleBlockAcceptsEveryCommand : Prop :=
  ∀ (s : State) (i : Instr), s.busy = false → i.wellFormed = true →
    i ≠ .writeBytes 0 → i ≠ .readBytes 0 →
    exec i s = .next
      { s with cmd := encode i, busy := true, done := false, err := false, rej := false, ill := false,
               k := 0 }

/-- R155 (a), R156 (a): WRITE_BYTES 0 and READ_BYTES 0 are accepted and complete in the write itself; `BUSY`
stays 0 and nothing but `CMD`, `k` and the flags changes. -/
def Obligations.ZeroCountCompletesInTheWrite : Prop :=
  ∀ s : State, s.busy = false →
    exec (.writeBytes 0) s = .next
      { s with cmd := 0x0600, done := true, err := false, rej := false, ill := false, k := 0 } ∧
    exec (.readBytes 0) s = .next
      { s with cmd := 0x0700, done := true, err := false, rej := false, ill := false, k := 0 }

/-- R195: an illegal word written to an idle block sets `ILL` and nothing else, through the step. -/
def Obligations.IllegalWordOnlySetsIll : Prop :=
  ∀ (s : State) (v : Word) (rest : List Action), s.pending = .write 0x00 v :: rest →
    s.busy = false → legal v = false → step s = .next { s with pending := rest, ill := true }

/-- R196: a write to `CMD` or to a `BUF` register while `BUSY` = 1 sets `REJ` and nothing else, whatever word
is written. -/
def Obligations.WriteWhileBusyOnlySetsRej : Prop :=
  ∀ (s : State) (a : Addr) (v : Word), s.busy = true →
    (a = 0x00 ∨ (0x10 ≤ a.toNat ∧ a.toNat ≤ 0x18)) → regWrite a v s = .next { s with rej := true }

/-- R93, R240: the lengths, for every content of `BUF`. -/
def Obligations.CommandLengths : Prop :=
  ∀ m : Buffer,
    planLength (plan .reset m) = 960 ∧ (∀ b, planLength (plan (.writeBit b) m) = 61) ∧
    planLength (plan .readBit m) = 61 ∧ (∀ d, planLength (plan (.writeByte d) m) = 488) ∧
    planLength (plan .readByte m) = 488 ∧
    (∀ n : BitVec 4, n.toNat ≤ 9 → planLength (plan (.writeBytes n) m) = 488 * n.toNat) ∧
    (∀ n : BitVec 4, n.toNat ≤ 9 → planLength (plan (.readBytes n) m) = 488 * n.toNat) ∧
    planLength (plan .convert m) = 1936 ∧ planLength (plan .readTemp m) = 6328

/-! ## The register port -/

/-- R65, R67: a write to STATUS, DATA, TEMP, ERRCODE or to a reserved address is ignored at any time; a read
of a reserved address gives 0x0000; neither changes anything of the block. -/
def Obligations.ReadOnlyAndReservedAddresses : Prop :=
  ∀ (s : State) (a : Addr) (v : Word),
    (0x01 ≤ a.toNat → a.toNat ≤ 0x04 → regWrite a v s = .next s) ∧
    ((0x05 ≤ a.toNat ∧ a.toNat ≤ 0x0F) ∨ (0x19 ≤ a.toNat ∧ a.toNat ≤ 0x1F) →
      hostRead a s = .next { s with hostReads := 0x0000 :: s.hostReads } ∧ regWrite a v s = .next s)

/-- R66: a write to `BUFj`: refused with `REJ` while `BUSY`, otherwise `BUF[j]` takes the low byte and nothing
else changes. -/
def Obligations.BufferWriteTakesTheLowByte : Prop :=
  ∀ (s : State) (a : Addr) (v : Word) (j : BufIndex), a.toNat = 0x10 + j.val →
    (s.busy = true → regWrite a v s = .next { s with rej := true }) ∧
    (s.busy = false → ∃ m, regWrite a v s = .next { s with buf := m } ∧
      bufGet m j = v.extractLsb' 0 8 ∧ ∀ j', j' ≠ j → bufGet m j' = bufGet s.buf j')

/-- R62, R63, R70: what each address reads as, zero-extended. -/
def Obligations.AddressMapOfReads : Prop :=
  ∀ s : State,
    regRead 0x00 s = s.cmd ∧ regRead 0x01 s = statusWord s ∧ regRead 0x02 s = 0#8 ++ s.sr ∧
    regRead 0x03 s = s.temp ∧ regRead 0x04 s = 0#8 ++ s.errcode ∧
    ∀ (a : Addr) (j : BufIndex), a.toNat = 0x10 + j.val → regRead a s = 0#8 ++ bufGet s.buf j

/-- R63: a host read completes at once in any state, hands the host the register, and changes nothing of the
block; a second read with nothing between returns the same value. -/
def Obligations.HostReadChangesNothing : Prop :=
  ∀ (s : State) (a : Addr) (rest : List Action), s.pending = .read a :: rest →
    step s = .next { s with pending := rest, hostReads := regRead a s :: s.hostReads } ∧
    ∀ t, step s = .next t → regRead a t = regRead a s

/-- R22: the bits of STATUS; reading it changes nothing, a write to it is ignored. -/
def Obligations.StatusBits : Prop :=
  ∀ s : State, (regRead 0x01 s).getLsbD 0 = s.busy ∧ (regRead 0x01 s).getLsbD 1 = s.done ∧
    (regRead 0x01 s).getLsbD 2 = s.err ∧ (regRead 0x01 s).getLsbD 3 = s.pres ∧
    (regRead 0x01 s).getLsbD 4 = s.rbit ∧ (regRead 0x01 s).getLsbD 5 = s.rej ∧
    (regRead 0x01 s).getLsbD 6 = s.ill ∧ (∀ n, 7 ≤ n → (regRead 0x01 s).getLsbD n = false) ∧
    hostRead 0x01 s = .next { s with hostReads := regRead 0x01 s :: s.hostReads } ∧
    ∀ v, regWrite 0x01 v s = .next s

/-- R23, R196, R235: no host action disturbs a command in flight. Whatever the host reads or writes while
`BUSY` = 1, only `REJ` and what the host has read can change. -/
def Obligations.HostCannotDisturbACommandInFlight : Prop :=
  ∀ (s : State) (a : Addr) (v : Word) (rest : List Action), s.busy = true →
    (s.pending = .write a v :: rest →
      ∃ rej, step s = .next { s with pending := rest, rej := rej } ∧ (s.rej = true → rej = true)) ∧
    (s.pending = .read a :: rest →
      step s = .next { s with pending := rest, hostReads := regRead a s :: s.hostReads })

/-! ## Tick -/

/-- R113: while `BUSY` = 0 a tick changes nothing of the block, whatever its inputs. -/
def Obligations.IdleTickChangesNothing : Prop :=
  ∀ (s : State) (x : TickInput), s.busy = false → tick x s = .next { s with time := s.time + 1 }

/-- R193: a tick whose offset has an event while `line_err` = 1 aborts: the line is released, the code is
recorded, `ERR` is set, `BUSY` and `k` are cleared, and nothing else changes; the failing event is not
performed. -/
def Obligations.LineFailureAborts : Prop :=
  ∀ (s : State) (x : TickInput) (i : Instr), s.busy = true → decode s.cmd = some i →
    eventAt (plan i s.buf) s.k.toNat ≠ none → x.lineErr = true →
    tick x s = .next
      { s with drv := false, errcode := x.lineErrCode, err := true, busy := false, k := 0,
               time := s.time + 1 }

/-- R115: the writes of an `S` event by its destination. `BUF[j]` takes the byte with the new bit 7. -/
def Obligations.SampleWritesByDestination : Prop :=
  ∀ (s : State) (lvl : Level),
    s.sampled .presence lvl = { s with pres := decide (lvl = .low) } ∧
    (∀ j, s.sampled (.bit none j) lvl = { s with rbit := decide (lvl = .high) }) ∧
    ∀ (i : BitIndex) (j : Option BufIndex), ∃ (sr : Byte) (m : Buffer),
      s.sampled (.bit (some i) j) lvl = { s with rbit := decide (lvl = .high), sr := sr, buf := m } ∧
      bitOf sr i = decide (lvl = .high) ∧ (∀ i', i' ≠ i → bitOf sr i' = bitOf s.sr i') ∧
      ∀ j', bufGet m j' = if i = 7 ∧ j = some j' then sr else bufGet s.buf j'

/-- R191, R77: in a tick without an event no input is looked at; in a tick with an `L` or `H` event `dev` is
not. -/
def Obligations.InputsAreObservedOnlyAtEvents : Prop :=
  ∀ (s : State) (x y : TickInput) (i : Instr), decode s.cmd = some i →
    (eventAt (plan i s.buf) s.k.toNat = none → tick x s = tick y s) ∧
    ((∀ d, eventAt (plan i s.buf) s.k.toNat ≠ some (.S d)) → SameFaults x y → tick x s = tick y s)

/-- R36: on a tick that neither completes nor aborts the command in flight, `k` goes up by exactly one; when
the command ends `k` is 0; and `k` never exceeds 6327. -/
def Obligations.PositionAdvancesByOne : Prop :=
  ∀ (s t : State) (x : TickInput), s.Inv → s.busy = true → tick x s = .next t →
    s.k.toNat ≤ 6327 ∧
    ((t.busy = true ∧ t.k.toNat = s.k.toNat + 1) ∨ (t.busy = false ∧ t.k = 0 ∧ (t.done = true ↔ t.err = false)))

/-! ## Slots and plans -/

/-- R116 to R119: the event tables, the lengths and the column "`drv` from this tick" of the four slots, at
every offset. -/
def Obligations.SlotTables : Prop :=
  (∀ o, eventAt [.rst] o = if o = 0 then some .L else if o = 480 then some .H
    else if o = 545 then some (.S .presence) else none) ∧
  (∀ o, eventAt [.w true] o = if o = 0 then some .L else if o = 1 then some .H else none) ∧
  (∀ o, eventAt [.w false] o = if o = 0 then some .L else if o = 60 then some .H else none) ∧
  (∀ i j o, eventAt [.r i j] o = if o = 0 then some .L else if o = 1 then some .H
    else if o = 21 then some (.S (.bit i j)) else none) ∧
  (∀ o, lowAt [.rst] o = decide (o < 480)) ∧ (∀ o, lowAt [.w true] o = decide (o < 1)) ∧
  (∀ o, lowAt [.w false] o = decide (o < 60)) ∧ (∀ i j o, lowAt [.r i j] o = decide (o < 1)) ∧
  planLength [.rst] = 960 ∧ planLength [.w true] = 61 ∧ planLength [.w false] = 61 ∧
  ∀ i j, planLength [.r i j] = 61

/-- R112: the events of every plan are those of its pseudocode at the ticks waited before them, no offset
has two, and the length is the sum of the waits. -/
def Obligations.PlanIsItsPseudocodeInTicks : Prop :=
  ∀ p : List Slot,
    (∀ o e, eventAt p o = some e ↔ (o, e) ∈ timedEvents 0 (pseudocode p)) ∧
    ((timedEvents 0 (pseudocode p)).map Prod.fst).Nodup ∧ waitTotal (pseudocode p) = planLength p

/-- R150, R151: in a written byte slot `i` has `L` at `61 i` and `H` one tick later for a one, 60 later for a
zero; in a read byte `L` at `61 i`, `H` one later, `S` of bit `i` 21 later; nothing at any other offset. -/
def Obligations.ByteEventsBySlot : Prop :=
  ∀ (d : Byte) (j : Option BufIndex) (i : BitIndex) (r : Nat), r < 61 →
    (eventAt (writeByteSlots d) (61 * i.val + r) =
      if r = 0 then some .L else if r = (if bitOf d i then 1 else 60) then some .H else none) ∧
    (eventAt (readByteSlots j) (61 * i.val + r) =
      if r = 0 then some .L else if r = 1 then some .H
      else if r = 21 then some (.S (.bit (some i) j)) else none)

/-- R192: the number of events of each command, for every operand and every content of `BUF`. -/
def Obligations.EventCounts : Prop :=
  ∀ m : Buffer,
    (timedEvents 0 (pseudocode (plan .reset m))).length = 3 ∧
    (∀ b, (timedEvents 0 (pseudocode (plan (.writeBit b) m))).length = 2) ∧
    (timedEvents 0 (pseudocode (plan .readBit m))).length = 3 ∧
    (∀ d, (timedEvents 0 (pseudocode (plan (.writeByte d) m))).length = 16) ∧
    (timedEvents 0 (pseudocode (plan .readByte m))).length = 24 ∧
    (∀ n : BitVec 4, n.toNat ≤ 9 →
      (timedEvents 0 (pseudocode (plan (.writeBytes n) m))).length = 16 * n.toNat) ∧
    (∀ n : BitVec 4, n.toNat ≤ 9 →
      (timedEvents 0 (pseudocode (plan (.readBytes n) m))).length = 24 * n.toNat) ∧
    (timedEvents 0 (pseudocode (plan .convert m))).length = 35 ∧
    (timedEvents 0 (pseudocode (plan .readTemp m))).length = 251

/-- R37, R170, R171: the phases of CONVERT and READ_TEMP are ranges of `k`, and in each the events are those
of that part of the sequence; an idle block is in Idle, and each of the other seven commands is one phase. -/
def Obligations.SequencerPhasesAreRangesOfPosition : Prop :=
  (∀ o, o < 1448 → eventAt planConvert o = eventAt planReadTemp o) ∧
  (∀ o, o < 960 → eventAt planReadTemp o = eventAt [.rst] o) ∧
  (∀ o, o < 488 → eventAt planReadTemp (960 + o) = eventAt (writeByteSlots 0xCC) o) ∧
  (∀ o, o < 488 → eventAt planConvert (1448 + o) = eventAt (writeByteSlots 0x44) o) ∧
  (∀ o, o < 488 → eventAt planReadTemp (1448 + o) = eventAt (writeByteSlots 0xBE) o) ∧
  (∀ (j : BufIndex) (o : Nat), o < 488 →
    eventAt planReadTemp (1936 + 488 * j.val + o) = eventAt (readByteSlots (some j)) o) ∧
  (∀ s : State, s.busy = false → phase s = .idle) ∧
  (∀ (s : State) (i : Instr), s.busy = true → decode s.cmd = some i → i ≠ .convert → i ≠ .readTemp →
    phase s = .busEngine) ∧
  (∀ (s : State) (i : Instr), s.busy = true → decode s.cmd = some i → i = .convert ∨ i = .readTemp →
    (s.k.toNat < 960 → phase s = .resetPresence) ∧
    (960 ≤ s.k.toNat → s.k.toNat < 1448 → phase s = .commandSkip) ∧
    (1448 ≤ s.k.toNat → s.k.toNat < 1936 → phase s = .commandSecond)) ∧
  (∀ s : State, s.busy = true → decode s.cmd = some .readTemp → ∀ j o, o < 488 →
    s.k.toNat = 1936 + 488 * j + o → phase s = .data j)

/-! ## Commands, from issue to completion

Each says that `exec` answers a next state and what stands in every field when the ticks of the command have
passed without a failing line operation. `devAt ins o` is `dev` at offset `o`; in all ticks without an event
the inputs are free. -/

/-- R120: RESET. 960 ticks; `PRES` from `dev` at offset 545 alone. -/
def Obligations.ResetDetectsPresence : Prop :=
  ∀ (s : State) (ins : List TickInput), s.busy = false → ins.length = 960 → Clean planReset ins →
    ∃ t, exec .reset s = .next t ∧
      runTicks ins t = .next { s.afterCommand 0x0100 960 with pres := devAt ins 545 }

/-- R121, R117, R118: WRITE_BIT b. 61 ticks; no flag but `DONE`, no register. On the wire: low in offset 0 only
for a one, in offsets 0 to 59 for a zero. -/
def Obligations.WriteBitRuns : Prop :=
  ∀ (s : State) (b : Bool) (ins : List TickInput), s.busy = false → ins.length = 61 →
    Clean (planWriteBit b) ins →
    ∃ t, exec (.writeBit b) s = .next t ∧
      runTicks ins t = .next (s.afterCommand (if b then 0x0201 else 0x0200) 61) ∧
      drvTrace ins t = (List.range 61).map fun o => decide (o < if b then 1 else 60)

/-- R122: READ_BIT. 61 ticks; `RBIT` from `dev` at offset 21 alone. -/
def Obligations.ReadBitSamplesOnce : Prop :=
  ∀ (s : State) (ins : List TickInput), s.busy = false → ins.length = 61 → Clean planReadBit ins →
    ∃ t, exec .readBit s = .next t ∧
      runTicks ins t = .next { s.afterCommand 0x0300 61 with rbit := bitAt ins 21 }

/-- R153, R150, R71: WRITE_BYTE d. 488 ticks; no flag but `DONE`, no register. On the wire: bit `i` of `d` in the
61 ticks from `61 i`, low in the first of them for a one, in the first 60 for a zero. -/
def Obligations.WriteByteRuns : Prop :=
  ∀ (s : State) (d : Byte) (ins : List TickInput), s.busy = false → ins.length = 488 →
    Clean (planWriteByte d) ins →
    ∃ t, exec (.writeByte d) s = .next t ∧ runTicks ins t = .next (s.afterCommand (0x04#8 ++ d) 488) ∧
      (drvTrace ins t).length = 488 ∧
      ∀ (i : BitIndex) (r : Nat), r < 61 →
        (drvTrace ins t)[61 * i.val + r]? = some (decide (r < if bitOf d i then 1 else 60))

/-- R154: READ_BYTE. 488 ticks; `SR` is the byte of the eight samples, first bit in bit 0, `RBIT` its bit 7;
`BUF` untouched. -/
def Obligations.ReadByteAssemblesEightSamples : Prop :=
  ∀ (s : State) (ins : List TickInput), s.busy = false → ins.length = 488 → Clean planReadByte ins →
    ∃ t, exec .readByte s = .next t ∧
      runTicks ins t = .next
        { s.afterCommand 0x0500 488 with rbit := bitAt ins 448, sr := byteAt ins 0 }

/-- R155, R72, R150: WRITE_BYTES n, n from 1 to 9. 488 n ticks; no flag but `DONE`, no register. On the wire: the
bytes `BUF[0]`, .., `BUF[n-1]` in that order, bit `i` of `BUF[j]` in the 61 ticks from `488 j + 61 i`, low in
the first of them for a one, in the first 60 for a zero. -/
def Obligations.WriteBytesRuns : Prop :=
  ∀ (s : State) (n : BitVec 4) (ins : List TickInput), s.busy = false → 1 ≤ n.toNat → n.toNat ≤ 9 →
    ins.length = 488 * n.toNat → Clean (planWriteBytes n s.buf) ins →
    ∃ t, exec (.writeBytes n) s = .next t ∧
      runTicks ins t = .next (s.afterCommand (0x060#12 ++ n) (488 * n.toNat)) ∧
      (drvTrace ins t).length = 488 * n.toNat ∧
      ∀ (j : BufIndex) (i : BitIndex) (r : Nat), j.val < n.toNat → r < 61 →
        (drvTrace ins t)[488 * j.val + 61 * i.val + r]? =
          some (decide (r < if bitOf (bufGet s.buf j) i then 1 else 60))

/-- R156: READ_BYTES n, n from 1 to 9. 488 n ticks; `BUF[j]` is the byte of the samples from offset 488 j, for
j below n, and the other bytes keep their values; `SR` and `RBIT` are those of the last byte. -/
def Obligations.ReadBytesFillTheBuffer : Prop :=
  ∀ (s : State) (n : BitVec 4) (ins : List TickInput), s.busy = false → 1 ≤ n.toNat → n.toNat ≤ 9 →
    ins.length = 488 * n.toNat → Clean (planReadBytes n) ins →
    ∃ t m, exec (.readBytes n) s = .next t ∧
      runTicks ins t = .next
        { s.afterCommand (0x070#12 ++ n) (488 * n.toNat) with
          rbit := bitAt ins (488 * (n.toNat - 1) + 448), sr := byteAt ins (488 * (n.toNat - 1)), buf := m } ∧
      ∀ j : BufIndex, bufGet m j = if j.val < n.toNat then byteAt ins (488 * j.val) else bufGet s.buf j

/-- R172: CONVERT. 1936 ticks; `PRES` from `dev` at offset 545 alone. -/
def Obligations.ConvertRuns : Prop :=
  ∀ (s : State) (ins : List TickInput), s.busy = false → ins.length = 1936 → Clean planConvert ins →
    ∃ t, exec .convert s = .next t ∧
      runTicks ins t = .next { s.afterCommand 0x0800 1936 with pres := devAt ins 545 }

/-- R173, R174: READ_TEMP. 6328 ticks; `PRES` from offset 545; `BUF[j]` the byte of the samples from
1936 + 488 j; `SR` and `RBIT` those of byte 8; `TEMP` the bytes 1 and 0 joined. -/
def Obligations.ReadTempDeliversTheTemperature : Prop :=
  ∀ (s : State) (ins : List TickInput), s.busy = false → ins.length = 6328 → Clean planReadTemp ins →
    ∃ t m, exec .readTemp s = .next t ∧
      runTicks ins t = .next
        { s.afterCommand 0x0900 6328 with
          pres := devAt ins 545, rbit := bitAt ins 6288, sr := byteAt ins 5840, buf := m,
          temp := byteAt ins 2424 ++ byteAt ins 1936 } ∧
      ∀ j : BufIndex, bufGet m j = byteAt ins (1936 + 488 * j.val)

/-- R174, R175, R176: `TEMP = 256 x BUF[1] + BUF[0]`, unsigned; its reading lies in 0 to 4095.9375; the
document's worked values, and the word 0xFF5E, which is not read as a negative number. -/
def Obligations.TemperatureIsUnsignedSixteenths : Prop :=
  (∀ m : Buffer, (decodedWord m).toNat = 256 * (bufGet m 1).toNat + (bufGet m 0).toNat) ∧
  (∀ w : Word, degrees w * 16 = w.toNat ∧ 0 ≤ degrees w ∧ degrees w ≤ 65535 / 16) ∧
  degrees 0x0550 = 85 ∧ degrees 0x0191 = 401 / 16 ∧ degrees 0xFF5E = 65374 / 16

/-! ## Results about every command -/

/-- R240, R124, through the step: a command issued to an idle block and left alone holds `BUSY` = 1 for
exactly its length in ticks, `k` counting them, and ends with `DONE` = 1 and `ERR` = 0, if no line operation
fails. -/
def Obligations.EveryCommandTakesExactlyItsLength : Prop :=
  ∀ (s : State) (i : Instr) (ins : List TickInput) (rest : List Action),
    s.busy = false → i.wellFormed = true → ins.length = planLength (plan i s.buf) →
    Clean (plan i s.buf) ins →
    s.pending = .write 0x00 (encode i) :: (ins.map Action.tick ++ rest) →
    (∀ n, n < ins.length → ∃ u, Sys2Proof.core.run (1 + n) s = .next u ∧
      State.busy u = true ∧ (State.k u).toNat = n ∧ State.done u = false ∧ State.err u = false) ∧
    ∃ u, Sys2Proof.core.run (1 + ins.length) s = .next u ∧ State.busy u = false ∧ State.done u = true ∧
      State.err u = false ∧ State.cmd u = encode i ∧ State.pending u = rest

/-- R193, R194: an abort is precise to the event. A command that ran without failure up to an offset that
has an event, and fails there, keeps all that the events before it wrote, and changes only what R193 says;
`TEMP` is that of before the command, `CMD` names it, `DONE` = 0, `ERR` = 1, `ILL` = 0. -/
def Obligations.AbortIsPreciseToTheEvent : Prop :=
  ∀ (s : State) (i : Instr) (ins : List TickInput) (x : TickInput), s.busy = false →
    i.wellFormed = true → Clean (plan i s.buf) ins → eventAt (plan i s.buf) ins.length ≠ none →
    x.lineErr = true →
    ∃ t u v, exec i s = .next t ∧ runTicks ins t = .next u ∧ tick x u = .next v ∧
      v = { u with drv := false, errcode := x.lineErrCode, err := true, busy := false, k := 0,
                   time := u.time + 1 } ∧
      v.temp = s.temp ∧ v.cmd = encode i ∧ v.done = false ∧ v.ill = false ∧ v.rej = false ∧
      u.time = s.time + ins.length

/-- R152, R194: a byte read cut off after any number of ticks shows, in `SR`, the bits sampled so far and the
old bits elsewhere. -/
def Obligations.PartialByteShowsTheBitsSampledSoFar : Prop :=
  ∀ (s : State) (ins : List TickInput), s.busy = false → ins.length < 488 → Clean planReadByte ins →
    ∃ t u, exec .readByte s = .next t ∧ runTicks ins t = .next u ∧
      ∀ i : BitIndex, bitOf u.sr i =
        if 61 * i.val + 21 < ins.length then bitAt ins (61 * i.val + 21) else bitOf s.sr i

/-- R194 for READ_TEMP: what a sequence cut off after any number of ticks leaves. `PRES` is new once offset 545
has passed, `BUF[j]` once bit 7 of byte j was sampled, `RBIT` and each bit of `SR` are the latest sampled,
all else is old, `TEMP` with it. -/
def Obligations.PartialTemperatureReadShowsWhatWasSampled : Prop :=
  ∀ (s : State) (ins : List TickInput), s.busy = false → ins.length < 6328 → Clean planReadTemp ins →
    ∃ t u, exec .readTemp s = .next t ∧ runTicks ins t = .next u ∧
      u.pres = (if 545 < ins.length then devAt ins 545 else s.pres) ∧ u.temp = s.temp ∧
      (∀ j : BufIndex, bufGet u.buf j =
        if 2384 + 488 * j.val < ins.length then byteAt ins (1936 + 488 * j.val) else bufGet s.buf j) ∧
      (ins.length ≤ 1957 → u.rbit = s.rbit) ∧
      (∀ m, m < 72 → 1957 + 61 * m < ins.length → ins.length ≤ 1957 + 61 * (m + 1) →
        u.rbit = bitAt ins (1957 + 61 * m)) ∧
      ∀ i : BitIndex, (ins.length ≤ 1957 + 61 * i.val → bitOf u.sr i = bitOf s.sr i) ∧
        ∀ j, j < 9 → 1957 + 488 * j + 61 * i.val < ins.length →
          ins.length ≤ 1957 + 488 * (j + 1) + 61 * i.val →
          bitOf u.sr i = bitAt ins (1957 + 488 * j + 61 * i.val)

/-- R110, R116 to R119, R170, R171: what the controller drives. For every command the trace of `ow_drv_low`,
tick by tick, is the column "`drv` from this tick" of the slots of its plan. -/
def Obligations.WaveformIsThatOfThePlan : Prop :=
  ∀ (s : State) (i : Instr) (ins : List TickInput), s.busy = false → i.wellFormed = true →
    ins.length = planLength (plan i s.buf) → Clean (plan i s.buf) ins →
    ∃ t, exec i s = .next t ∧
      drvTrace ins t = (List.range (planLength (plan i s.buf))).map (lowAt (plan i s.buf))

/-- R178, R77: what devices do never changes what the controller drives, how long it takes, nor whether it
fails. Two runs of ticks from states that agree on all but results, with inputs that differ only in `dev`,
keep agreeing and have the same `drv` trace. -/
def Obligations.DevicesCannotInfluenceTheWaveform : Prop :=
  ∀ (s s' t : State) (ins ins' : List TickInput), SameDrive s s' → List.Forall₂ SameFaults ins ins' →
    runTicks ins s = .next t →
    ∃ t', runTicks ins' s' = .next t' ∧ SameDrive t t' ∧ drvTrace ins s = drvTrace ins' s'

/-- R177, R103: CONVERT is RESET, WRITE_BYTE 0xCC, WRITE_BYTE 0x44 issued back to back with zero gap: the same
`drv` trace, and the same state in the end but for `CMD`. -/
def Obligations.ConvertEqualsItsBusEngineCommands : Prop :=
  ∀ (s : State) (a b c : List TickInput), s.busy = false → a.length = 960 → b.length = 488 →
    c.length = 488 → Clean planConvert (a ++ b ++ c) →
    ∃ t u t₁ u₁ t₂ u₂ t₃ u₃,
      exec .convert s = .next t ∧ runTicks (a ++ b ++ c) t = .next u ∧
      exec .reset s = .next t₁ ∧ runTicks a t₁ = .next u₁ ∧
      exec (.writeByte 0xCC) u₁ = .next t₂ ∧ runTicks b t₂ = .next u₂ ∧
      exec (.writeByte 0x44) u₂ = .next t₃ ∧ runTicks c t₃ = .next u₃ ∧
      u = { u₃ with cmd := 0x0800 } ∧
      drvTrace (a ++ b ++ c) t = drvTrace a t₁ ++ drvTrace b t₂ ++ drvTrace c t₃

/-- R177, R103: READ_TEMP is RESET, WRITE_BYTE 0xCC, WRITE_BYTE 0xBE, READ_BYTES 9 issued back to back with
zero gap: the same `drv` trace, and the same state in the end but for `CMD` and `TEMP`, which only READ_TEMP
writes. -/
def Obligations.ReadTempEqualsItsBusEngineCommands : Prop :=
  ∀ (s : State) (a b c d : List TickInput), s.busy = false → a.length = 960 → b.length = 488 →
    c.length = 488 → d.length = 4392 → Clean planReadTemp (a ++ b ++ c ++ d) →
    ∃ t u t₁ u₁ t₂ u₂ t₃ u₃ t₄ u₄,
      exec .readTemp s = .next t ∧ runTicks (a ++ b ++ c ++ d) t = .next u ∧
      exec .reset s = .next t₁ ∧ runTicks a t₁ = .next u₁ ∧
      exec (.writeByte 0xCC) u₁ = .next t₂ ∧ runTicks b t₂ = .next u₂ ∧
      exec (.writeByte 0xBE) u₂ = .next t₃ ∧ runTicks c t₃ = .next u₃ ∧
      exec (.readBytes 9) u₃ = .next t₄ ∧ runTicks d t₄ = .next u₄ ∧
      u = { u₄ with cmd := 0x0900, temp := bufGet u₄.buf 1 ++ bufGet u₄.buf 0 } ∧
      drvTrace (a ++ b ++ c ++ d) t = drvTrace a t₁ ++ drvTrace b t₂ ++ drvTrace c t₃ ++ drvTrace d t₄

/-- R158: the round trip through a device that echoes. The device takes the level of the line at one fixed
offset, 1 to 59, of each slot of WRITE_BYTE b, and answers slot `i` of the READ_BYTE that follows by pulling
low at its sample exactly when it took a low in slot `i`; then `SR` = b. -/
def Obligations.EchoingDeviceReturnsTheByteWritten : Prop :=
  ∀ (s : State) (b : Byte) (at_ : Nat) (wr rd : List TickInput), s.busy = false →
    1 ≤ at_ → at_ ≤ 59 → wr.length = 488 → rd.length = 488 →
    Clean (planWriteByte b) wr → Clean planReadByte rd →
    (∀ i : BitIndex, devAt wr (61 * i.val + at_) = false) →
    ∃ t u t' u', exec (.writeByte b) s = .next t ∧ runTicks wr t = .next u ∧
      exec .readByte u = .next t' ∧ runTicks rd t' = .next u' ∧
      ((∀ i : BitIndex, devAt rd (61 * i.val + 21) =
          decide (lineLevel ((drvTrace wr t).getD (61 * i.val + at_) false)
            (devAt wr (61 * i.val + at_)) = .low)) →
        u'.sr = b)

/-! ## Every step -/

/-- R31 at reset. -/
def Obligations.ResetMeetsTheInvariant : Prop := State.reset.Inv

/-- R31: every step of every agent keeps (a) to (d) and (f). -/
def Obligations.EveryStepKeepsTheInvariant : Prop :=
  ∀ s t : State, s.Inv → step s = .next t → t.Inv

/-- A machine in a state that meets R31 never stops: every step answers a next state. -/
def Obligations.NoStopUnderTheInvariant : Prop := ∀ s : State, s.Inv → ∃ t, step s = .next t

/-- R31 (e): `ILL` can rise only while `BUSY` = 0 and `REJ` only while `BUSY` = 1. -/
def Obligations.RefusalFlagsRiseByBusy : Prop :=
  ∀ s t : State, step s = .next t →
    (s.ill = false → t.ill = true → s.busy = false) ∧ (s.rej = false → t.rej = true → s.busy = true)

/-- R28, R29, R198: `REJ`, `ILL` and `ERR` fall only when a command is accepted or the block is reset. -/
def Obligations.RefusalAndErrorFlagsFallOnlyAtAcceptance : Prop :=
  ∀ s t : State, step s = .next t → (nextAction s).1.isReset = false →
    (s.rej = true ∧ t.rej = false) ∨ (s.ill = true ∧ t.ill = false) ∨ (s.err = true ∧ t.err = false) →
    s.busy = false ∧ ∃ v, (nextAction s).1 = .write 0x00 v ∧ legal v = true ∧ t.cmd = v

/-- R21: `CMD` changes only by an accepted command word, or reset. -/
def Obligations.CmdChangesOnlyByAcceptance : Prop :=
  ∀ s t : State, step s = .next t → (nextAction s).1.isReset = false → t.cmd ≠ s.cmd →
    s.busy = false ∧ legal t.cmd = true ∧ (nextAction s).1 = .write 0x00 t.cmd

/-- R32: `TEMP` changes only at the completion of READ_TEMP, to `BUF[1] ++ BUF[0]`, or by reset. -/
def Obligations.TempChangesOnlyAtReadTempCompletion : Prop :=
  ∀ s t : State, step s = .next t → (nextAction s).1.isReset = false → t.temp ≠ s.temp →
    s.busy = true ∧ opField s.cmd = 9 ∧ t.busy = false ∧ t.done = true ∧
      t.temp = bufGet t.buf 1 ++ bufGet t.buf 0

/-- R33: `ERRCODE` changes only by an abort, to `line_err_code` of that tick, or by reset. -/
def Obligations.ErrcodeChangesOnlyByAbort : Prop :=
  ∀ s t : State, step s = .next t → (nextAction s).1.isReset = false → t.errcode ≠ s.errcode →
    s.busy = true ∧ t.busy = false ∧ t.err = true ∧
      ∃ x, (nextAction s).1 = .tick x ∧ x.lineErr = true ∧ t.errcode = x.lineErrCode

/-- R26, R27, R30, R34, R35: `PRES`, `RBIT`, `SR` change only in a tick of a command in flight, at its sample;
`drv` only in such a tick; `BUF` in such a tick or by a host write of an idle block. No host access moves the
line. -/
def Obligations.ResultsChangeOnlyInTicksOfACommand : Prop :=
  ∀ s t : State, step s = .next t → (nextAction s).1.isReset = false →
    (t.pres ≠ s.pres ∨ t.rbit ≠ s.rbit ∨ t.sr ≠ s.sr ∨ t.drv ≠ s.drv →
      s.busy = true ∧ (nextAction s).1.isTick = true) ∧
    (t.pres ≠ s.pres ∨ t.rbit ≠ s.rbit ∨ t.sr ≠ s.sr →
      ∃ i d, decode s.cmd = some i ∧ eventAt (plan i s.buf) s.k.toNat = some (.S d)) ∧
    (t.buf ≠ s.buf → (s.busy = true ∧ (nextAction s).1.isTick = true) ∨
      (s.busy = false ∧ ∃ a v, (nextAction s).1 = .write a v ∧ 0x10 ≤ a.toNat ∧ a.toNat ≤ 0x18))
end

