-- ==== Sys2Proof/Laws/Bytes.lean ====
section
/-! SUPPORT. What one bit of a byte and one byte of the buffer read as after a write, and the slot lists of
bytes. -/

namespace Sys2Proof.Machine

@[simp] theorem bufGet_bufSet_self (m : Buffer) (j : BufIndex) (v : Byte) :
    bufGet (bufSet m j v) j = v := by
  simp [bufGet, bufSet]

theorem bufGet_bufSet_of_ne (m : Buffer) {j j' : BufIndex} (v : Byte) (h : j ≠ j') :
    bufGet (bufSet m j v) j' = bufGet m j' := by
  have : j.val ≠ j'.val := fun e => h (Fin.ext e)
  simp [bufGet, bufSet, this]

theorem bufGet_bufSet (m : Buffer) (j j' : BufIndex) (v : Byte) :
    bufGet (bufSet m j v) j' = if j = j' then v else bufGet m j' := by
  by_cases h : j = j'
  · subst h; simp
  · simp [h, bufGet_bufSet_of_ne]

/-- Two buffers with the same bytes are the same buffer. -/
theorem buf_ext {m n : Buffer} (h : ∀ j, bufGet m j = bufGet n j) : m = n := by
  apply Vector.ext
  intro i hi
  exact h ⟨i, hi⟩

theorem bitOf_setBit (d : Byte) (i i' : BitIndex) (b : Bool) :
    bitOf (setBit d i b) i' = if i = i' then b else bitOf d i' := by
  revert i i'
  cases b <;> simp only [bitOf, setBit] <;> intro i i' <;> fin_cases i <;> fin_cases i' <;> simp

/-- Two bytes with the same bits are the same byte. -/
theorem byte_ext {c d : Byte} (h : ∀ i, bitOf c i = bitOf d i) : c = d := by
  apply BitVec.eq_of_getLsbD_eq
  intro i hi
  exact h ⟨i, hi⟩

theorem writeByteSlots_eq (d : Byte) :
    writeByteSlots d = [.w (bitOf d 0), .w (bitOf d 1), .w (bitOf d 2), .w (bitOf d 3), .w (bitOf d 4),
      .w (bitOf d 5), .w (bitOf d 6), .w (bitOf d 7)] := rfl

theorem readByteSlots_eq (j : Option BufIndex) :
    readByteSlots j = [.r (some 0) j, .r (some 1) j, .r (some 2) j, .r (some 3) j, .r (some 4) j,
      .r (some 5) j, .r (some 6) j, .r (some 7) j] := rfl

end Sys2Proof.Machine
end

