-- ==== Sys2Proof/Laws/Fields.lean ====
section
/-! SUPPORT. The three fields of a word, and the fields of an encoded command (spec/30_encoding.md R90). -/

namespace Sys2Proof

section
variable (z o : BitVec 4) (a : Byte)

theorem zField_append : zField ((z ++ o) ++ a) = z := by
  apply BitVec.eq_of_getLsbD_eq
  intro i hi
  have h1 : ¬ 12 + i < 8 := by omega
  have h2 : ¬ 12 + i - 8 < 4 := by omega
  simp only [zField, BitVec.getLsbD_extractLsb', BitVec.getLsbD_append, hi, decide_true, Bool.true_and]
  rw [if_neg h1, if_neg h2]
  congr 1
  omega

theorem opField_append : opField ((z ++ o) ++ a) = o := by
  apply BitVec.eq_of_getLsbD_eq
  intro i hi
  have h1 : ¬ 8 + i < 8 := by omega
  have h2 : 8 + i - 8 < 4 := by omega
  simp only [opField, BitVec.getLsbD_extractLsb', BitVec.getLsbD_append, hi, decide_true, Bool.true_and]
  rw [if_neg h1, if_pos h2]
  congr 1
  omega

theorem argField_append : argField ((z ++ o) ++ a) = a := by
  apply BitVec.eq_of_getLsbD_eq
  intro i hi
  have h1 : 0 + i < 8 := by omega
  simp only [argField, BitVec.getLsbD_extractLsb', BitVec.getLsbD_append, hi, decide_true, Bool.true_and]
  rw [if_pos h1]
  congr 1
  omega

end

theorem zField_encode (i : Instr) : zField (encode i) = 0 := zField_append _ _ _
theorem opField_encode (i : Instr) : opField (encode i) = i.opcode := opField_append _ _ _
theorem argField_encode (i : Instr) : argField (encode i) = i.argument := argField_append _ _ _

/-! ## The words of R92 -/

@[simp] theorem encode_reset : encode .reset = 0x0100 := rfl
@[simp] theorem encode_writeBit (b : Bool) : encode (.writeBit b) = if b then 0x0201 else 0x0200 := by
  cases b <;> rfl
@[simp] theorem encode_readBit : encode .readBit = 0x0300 := rfl
@[simp] theorem encode_writeByte (d : Byte) : encode (.writeByte d) = 0x04#8 ++ d := by
  simp [encode, Instr.opcode, Instr.argument]
@[simp] theorem encode_readByte : encode .readByte = 0x0500 := rfl
@[simp] theorem encode_writeBytes (n : BitVec 4) : encode (.writeBytes n) = 0x060#12 ++ n := by
  revert n; decide
@[simp] theorem encode_readBytes (n : BitVec 4) : encode (.readBytes n) = 0x070#12 ++ n := by
  revert n; decide
@[simp] theorem encode_convert : encode .convert = 0x0800 := rfl
@[simp] theorem encode_readTemp : encode .readTemp = 0x0900 := rfl

/-- A word is its three fields. -/
theorem word_eq_fields (v : Word) : (zField v ++ opField v) ++ argField v = v := by
  apply BitVec.eq_of_getLsbD_eq
  intro i hi
  simp only [BitVec.getLsbD_append]
  split
  · simp only [argField, BitVec.getLsbD_extractLsb']
    simp [*]
  · split
    · simp only [opField, BitVec.getLsbD_extractLsb']
      simp only [*, decide_true, Bool.true_and]
      congr 1
      omega
    · simp only [zField, BitVec.getLsbD_extractLsb']
      rw [decide_eq_true (by omega), Bool.true_and]
      congr 1
      omega

/-- Two words with the same three fields are the same word. -/
theorem word_ext {v w : Word} (hz : zField v = zField w) (ho : opField v = opField w)
    (ha : argField v = argField w) : v = w := by
  rw [← word_eq_fields v, ← word_eq_fields w, hz, ho, ha]

end Sys2Proof
end

