-- ==== Sys2Proof/Laws/Slots.lean ====
section
/-! SUPPORT. Lengths and events of slots and plans: what a plan does at an offset is what the slot the offset
lies in does there. -/

namespace Sys2Proof.Machine

@[simp] theorem Slot.length_rst : Slot.length .rst = 960 := rfl
@[simp] theorem Slot.length_w (b : Bool) : (Slot.w b).length = 61 := by cases b <;> rfl
@[simp] theorem Slot.length_r (i : Option BitIndex) (j : Option BufIndex) : (Slot.r i j).length = 61 := rfl

theorem Slot.event_rst (o : Nat) : Slot.event .rst o =
    if o = 0 then some .L else if o = 480 then some .H
    else if o = 545 then some (.S .presence) else none := rfl

theorem Slot.event_w (b : Bool) (o : Nat) : (Slot.w b).event o =
    if o = 0 then some .L else if o = (if b then 1 else 60) then some .H else none := by
  cases b <;> rfl

theorem Slot.event_r (i : Option BitIndex) (j : Option BufIndex) (o : Nat) : (Slot.r i j).event o =
    if o = 0 then some .L else if o = 1 then some .H
    else if o = 21 then some (.S (.bit i j)) else none := rfl

@[simp] theorem planLength_nil : planLength [] = 0 := rfl
@[simp] theorem planLength_cons (sl : Slot) (p : List Slot) :
    planLength (sl :: p) = sl.length + planLength p := rfl

@[simp] theorem planLength_append (p q : List Slot) :
    planLength (p ++ q) = planLength p + planLength q := by
  induction p with
  | nil => simp
  | cons sl p ih => simp [ih, Nat.add_assoc]

@[simp] theorem planLength_writeByteSlots (d : Byte) : planLength (writeByteSlots d) = 488 := by
  simp [writeByteSlots_eq]

@[simp] theorem planLength_readByteSlots (j : Option BufIndex) : planLength (readByteSlots j) = 488 := by
  simp [readByteSlots_eq]

/-- A counted sequence of bytes is 488 ticks a byte. -/
theorem planLength_flatMap {α : Type} (l : List α) (f : α → List Slot)
    (h : ∀ a ∈ l, planLength (f a) = 488) : planLength (l.flatMap f) = 488 * l.length := by
  induction l with
  | nil => rfl
  | cons a l ih =>
    have := h a (by simp)
    have := ih fun b hb => h b (by simp [hb])
    simp_all
    omega

theorem length_countedIndices {n : BitVec 4} (h : countOk n = true) :
    (countedIndices n).length = n.toNat := by
  have : n.toNat ≤ 9 := by simpa [countOk] using h
  simp [countedIndices, bufOrder]
  omega

/-- The event of the slot that an offset lies in, the slots before it taking up `planLength pre` ticks
(40_bus_bit.md R114). -/
theorem eventAt_slot (pre : List Slot) (sl : Slot) (post : List Slot) {o : Nat} (h : o < sl.length) :
    eventAt (pre ++ sl :: post) (planLength pre + o) = sl.event o := by
  induction pre with
  | nil => simp [eventAt, h]
  | cons a pre ih =>
    simp only [List.cons_append, eventAt, planLength_cons]
    rw [if_neg (by omega)]
    rw [show a.length + planLength pre + o - a.length = planLength pre + o by omega]
    exact ih

/-- A plan has no event at or after its end. -/
theorem eventAt_of_le (p : List Slot) {o : Nat} (h : planLength p ≤ o) : eventAt p o = none := by
  induction p generalizing o with
  | nil => rfl
  | cons sl p ih =>
    simp only [planLength_cons] at h
    simp only [eventAt]
    rw [if_neg (by omega)]
    exact ih (by omega)

/-- The controller's level at an offset is that of the slot the offset lies in. -/
theorem lowAt_slot (pre : List Slot) (sl : Slot) (post : List Slot) {o : Nat} (h : o < sl.length) :
    lowAt (pre ++ sl :: post) (planLength pre + o) = decide (o < sl.lowTicks) := by
  induction pre with
  | nil => simp [lowAt, h]
  | cons a pre ih =>
    simp only [List.cons_append, lowAt, planLength_cons]
    rw [if_neg (by omega)]
    rw [show a.length + planLength pre + o - a.length = planLength pre + o by omega]
    exact ih

@[simp] theorem Slot.lowTicks_rst : Slot.lowTicks .rst = 480 := rfl
@[simp] theorem Slot.lowTicks_w (b : Bool) : (Slot.w b).lowTicks = if b then 1 else 60 := by cases b <;> rfl
@[simp] theorem Slot.lowTicks_r (i : Option BitIndex) (j : Option BufIndex) : (Slot.r i j).lowTicks = 1 := rfl

theorem Slot.lowTicks_lt_length (sl : Slot) : sl.lowTicks < sl.length := by
  match sl with
  | .rst => decide
  | .w true => decide
  | .w false => decide
  | .r _ _ => exact (by decide : 1 < 61)

theorem Slot.lowTicks_pos (sl : Slot) : 0 < sl.lowTicks := by
  match sl with
  | .rst => decide
  | .w true => decide
  | .w false => decide
  | .r _ _ => exact (by decide : 0 < 1)

/-- The driver's level an event leaves, `d` being the level before it. -/
def LineEvent.drive (d : Bool) : Option LineEvent → Bool
  | some .L => true
  | some .H => false
  | some (.S _) => d
  | none => d

/-- Within a slot the level at an offset is what the offset's event makes of the level before it. -/
theorem Slot.low_event (sl : Slot) (o : Nat) :
    decide (o < sl.lowTicks) =
      LineEvent.drive (decide (0 < o) && decide (o - 1 < sl.lowTicks)) (sl.event o) := by
  have h := sl.lowTicks_pos
  unfold Slot.event
  by_cases h0 : o = 0
  · subst h0
    simp [LineEvent.drive, h]
  · by_cases h1 : o = sl.lowTicks
    · subst h1
      simp [LineEvent.drive, h0]
    · rw [if_neg h0, if_neg h1]
      have hd : decide (o < sl.lowTicks) = (decide (0 < o) && decide (o - 1 < sl.lowTicks)) := by
        rw [Bool.eq_iff_iff]
        simp
        omega
      split
      · split <;> simpa [LineEvent.drive] using hd
      · simpa [LineEvent.drive] using hd

/-- The level a plan has at an offset is what the offset's event makes of the level one tick before; before
the first tick the line is released. -/
theorem lowAt_event (p : List Slot) {o : Nat} (ho : o < planLength p) :
    lowAt p o = LineEvent.drive (decide (0 < o) && lowAt p (o - 1)) (eventAt p o) := by
  induction p generalizing o with
  | nil => simp at ho
  | cons sl p ih =>
    simp only [planLength_cons] at ho
    simp only [lowAt, eventAt]
    by_cases h : o < sl.length
    · rw [if_pos h, if_pos h, if_pos (by omega)]
      exact sl.low_event o
    · rw [if_neg h, if_neg h]
      by_cases h0 : o = sl.length
      · subst h0
        cases p with
        | nil => simp at ho
        | cons b p =>
          have hb := b.lowTicks_pos
          have hl : 0 < b.length := Nat.lt_trans hb b.lowTicks_lt_length
          simp [lowAt, eventAt, hl, Slot.event, LineEvent.drive, hb]
      · rw [if_neg (by omega), ih (by omega)]
        congr 2
        · simp; omega
        · congr 1
          omega

/-- Every plan ends with the line released. -/
theorem lowAt_last (p : List Slot) {o : Nat} (ho : o + 1 = planLength p) : lowAt p o = false := by
  induction p generalizing o with
  | nil => rfl
  | cons sl p ih =>
    have h := sl.lowTicks_lt_length
    rw [planLength_cons] at ho
    rw [lowAt]
    by_cases h0 : planLength p = 0
    · rw [if_pos (by omega)]
      simp
      omega
    · rw [if_neg (by omega)]
      exact ih (by omega)

/-- Every command that has ticks drives the line low in its first (20_memory.md R77). -/
theorem eventAt_zero {p : List Slot} (h : 0 < planLength p) : eventAt p 0 = some .L := by
  cases p with
  | nil => simp at h
  | cons sl p => rw [eventAt, if_pos (Nat.lt_trans sl.lowTicks_pos sl.lowTicks_lt_length)]; rfl

/-- In the first part of a plan the level is that part's. -/
theorem lowAt_append_left (p q : List Slot) {o : Nat} (ho : o < planLength p) :
    lowAt (p ++ q) o = lowAt p o := by
  induction p generalizing o with
  | nil => simp at ho
  | cons sl p ih =>
    rw [planLength_cons] at ho
    rw [List.cons_append, lowAt, lowAt]
    split
    · rfl
    · exact ih (by omega)

/-- After the first part of a plan the level is that of the rest. -/
theorem lowAt_append_right (p q : List Slot) (o : Nat) : lowAt (p ++ q) (planLength p + o) = lowAt q o := by
  induction p with
  | nil => rw [List.nil_append, planLength_nil, Nat.zero_add]
  | cons sl p ih =>
    rw [List.cons_append, lowAt, planLength_cons, if_neg (by omega),
      show sl.length + planLength p + o - sl.length = planLength p + o by omega, ih]

/-- A written byte on the wire: bit `i` takes the 61 ticks from `61 i`, low in the first of them for a one and
in the first 60 for a zero (41_bus_byte.md R150). -/
theorem lowAt_writeByteSlots (d : Byte) (i : BitIndex) {r : Nat} (hr : r < 61) :
    lowAt (writeByteSlots d) (61 * i.val + r) = decide (r < if bitOf d i then 1 else 60) := by
  have key : ∀ (l : List BitIndex) (n : Nat) (h : n < l.length),
      lowAt (l.map fun i => .w (bitOf d i)) (61 * n + r) = decide (r < if bitOf d l[n] then 1 else 60) := by
    intro l
    induction l with
    | nil => intro n h; cases h
    | cons a l ih =>
      intro n h
      rw [List.map_cons, lowAt, Slot.length_w]
      cases n with
      | zero => rw [if_pos (by omega), Slot.lowTicks_w, Nat.mul_zero, Nat.zero_add]; rfl
      | succ n =>
        rw [if_neg (by omega), show 61 * (n + 1) + r - 61 = 61 * n + r by omega]
        exact ih n (by simpa using h)
  have hw : ∀ j : BitIndex, wireOrder[j.val]'(by simp [wireOrder]) = j := by decide
  rw [writeByteSlots, key wireOrder i.val (by simp [wireOrder]), hw i]

/-- Bytes written one after the other: byte `n` of the list takes the 488 ticks from `488 n`. -/
theorem lowAt_flatMap_writeByteSlots {α : Type} (f : α → Byte) : ∀ (l : List α) (n : Nat) (h : n < l.length)
    {o : Nat}, o < 488 →
    lowAt (l.flatMap fun a => writeByteSlots (f a)) (488 * n + o) = lowAt (writeByteSlots (f l[n])) o := by
  intro l
  induction l with
  | nil => intro n h; cases h
  | cons a l ih =>
    intro n h o ho
    rw [List.flatMap_cons]
    cases n with
    | zero => rw [Nat.mul_zero, Nat.zero_add, lowAt_append_left _ _ (by simpa using ho)]; rfl
    | succ n =>
      rw [show 488 * (n + 1) + o = planLength (writeByteSlots (f a)) + (488 * n + o) by
        rw [planLength_writeByteSlots]; omega, lowAt_append_right]
      exact ih n (by simpa using h) ho

/-- The counted indices are 0, 1, 2 and so on (20_memory.md R72). -/
theorem getElem_countedIndices (n : BitVec 4) (j : BufIndex) (h : j.val < (countedIndices n).length) :
    (countedIndices n)[j.val] = j := by
  have hb : ∀ j : BufIndex, bufOrder[j.val]'(by simp [bufOrder]) = j := by decide
  simp only [countedIndices, List.getElem_take]
  exact hb j

/-- The length of a plan does not depend on what the buffer holds. -/
theorem planLength_plan_buf (i : Instr) (m n : Buffer) : planLength (plan i m) = planLength (plan i n) := by
  cases i <;> simp only [plan]
  case writeBytes c =>
    simp only [planWriteBytes]
    rw [planLength_flatMap _ _ (by simp), planLength_flatMap _ _ (by simp)]

/-- No plan is longer than READ_TEMP's. -/
theorem planLength_plan_le (i : Instr) (m : Buffer) : planLength (plan i m) ≤ 6328 := by
  have hc : ∀ n, (countedIndices n).length ≤ 9 := fun n => by simp [countedIndices, bufOrder]
  cases i <;> simp only [plan]
  case writeBytes n =>
    rw [planWriteBytes, planLength_flatMap _ _ (by simp)]
    have := hc n
    omega
  case readBytes n =>
    rw [planReadBytes, planLength_flatMap _ _ (by simp)]
    have := hc n
    omega
  case writeBit b => simp [planWriteBit]
  case writeByte d => simp [planWriteByte]
  all_goals decide

end Sys2Proof.Machine
end

