-- ==== Sys2Proof/Laws/State.lean ====
section
/-! SUPPORT. One lemma per field and per named update of State, so that no proof unfolds an update. -/

namespace Sys2Proof.Machine

/-! ## `flagsAccepted` -/

@[simp] theorem State.flagsAccepted_cmd (s : State) (n : Nat) : (s.flagsAccepted n).cmd = s.cmd := rfl
@[simp] theorem State.flagsAccepted_busy (s : State) (n : Nat) : (s.flagsAccepted n).busy = decide (n ≠ 0) := rfl
@[simp] theorem State.flagsAccepted_done (s : State) (n : Nat) : (s.flagsAccepted n).done = decide (n = 0) := rfl
@[simp] theorem State.flagsAccepted_err (s : State) (n : Nat) : (s.flagsAccepted n).err = false := rfl
@[simp] theorem State.flagsAccepted_pres (s : State) (n : Nat) : (s.flagsAccepted n).pres = s.pres := rfl
@[simp] theorem State.flagsAccepted_rbit (s : State) (n : Nat) : (s.flagsAccepted n).rbit = s.rbit := rfl
@[simp] theorem State.flagsAccepted_rej (s : State) (n : Nat) : (s.flagsAccepted n).rej = false := rfl
@[simp] theorem State.flagsAccepted_ill (s : State) (n : Nat) : (s.flagsAccepted n).ill = false := rfl
@[simp] theorem State.flagsAccepted_sr (s : State) (n : Nat) : (s.flagsAccepted n).sr = s.sr := rfl
@[simp] theorem State.flagsAccepted_temp (s : State) (n : Nat) : (s.flagsAccepted n).temp = s.temp := rfl
@[simp] theorem State.flagsAccepted_errcode (s : State) (n : Nat) : (s.flagsAccepted n).errcode = s.errcode := rfl
@[simp] theorem State.flagsAccepted_buf (s : State) (n : Nat) : (s.flagsAccepted n).buf = s.buf := rfl
@[simp] theorem State.flagsAccepted_drv (s : State) (n : Nat) : (s.flagsAccepted n).drv = s.drv := rfl
@[simp] theorem State.flagsAccepted_k (s : State) (n : Nat) : (s.flagsAccepted n).k = s.k := rfl
@[simp] theorem State.flagsAccepted_time (s : State) (n : Nat) : (s.flagsAccepted n).time = s.time := rfl
@[simp] theorem State.flagsAccepted_pending (s : State) (n : Nat) : (s.flagsAccepted n).pending = s.pending := rfl
@[simp] theorem State.flagsAccepted_draws (s : State) (n : Nat) : (s.flagsAccepted n).draws = s.draws := rfl
@[simp] theorem State.flagsAccepted_hostReads (s : State) (n : Nat) : (s.flagsAccepted n).hostReads = s.hostReads := rfl

/-! ## `flagsCompleted` -/

@[simp] theorem State.flagsCompleted_cmd (s : State) : (s.flagsCompleted).cmd = s.cmd := rfl
@[simp] theorem State.flagsCompleted_busy (s : State) : (s.flagsCompleted).busy = false := rfl
@[simp] theorem State.flagsCompleted_done (s : State) : (s.flagsCompleted).done = true := rfl
@[simp] theorem State.flagsCompleted_err (s : State) : (s.flagsCompleted).err = s.err := rfl
@[simp] theorem State.flagsCompleted_pres (s : State) : (s.flagsCompleted).pres = s.pres := rfl
@[simp] theorem State.flagsCompleted_rbit (s : State) : (s.flagsCompleted).rbit = s.rbit := rfl
@[simp] theorem State.flagsCompleted_rej (s : State) : (s.flagsCompleted).rej = s.rej := rfl
@[simp] theorem State.flagsCompleted_ill (s : State) : (s.flagsCompleted).ill = s.ill := rfl
@[simp] theorem State.flagsCompleted_sr (s : State) : (s.flagsCompleted).sr = s.sr := rfl
@[simp] theorem State.flagsCompleted_temp (s : State) : (s.flagsCompleted).temp = s.temp := rfl
@[simp] theorem State.flagsCompleted_errcode (s : State) : (s.flagsCompleted).errcode = s.errcode := rfl
@[simp] theorem State.flagsCompleted_buf (s : State) : (s.flagsCompleted).buf = s.buf := rfl
@[simp] theorem State.flagsCompleted_drv (s : State) : (s.flagsCompleted).drv = s.drv := rfl
@[simp] theorem State.flagsCompleted_k (s : State) : (s.flagsCompleted).k = s.k := rfl
@[simp] theorem State.flagsCompleted_time (s : State) : (s.flagsCompleted).time = s.time := rfl
@[simp] theorem State.flagsCompleted_pending (s : State) : (s.flagsCompleted).pending = s.pending := rfl
@[simp] theorem State.flagsCompleted_draws (s : State) : (s.flagsCompleted).draws = s.draws := rfl
@[simp] theorem State.flagsCompleted_hostReads (s : State) : (s.flagsCompleted).hostReads = s.hostReads := rfl

/-! ## `flagsAborted` -/

@[simp] theorem State.flagsAborted_cmd (s : State) : (s.flagsAborted).cmd = s.cmd := rfl
@[simp] theorem State.flagsAborted_busy (s : State) : (s.flagsAborted).busy = false := rfl
@[simp] theorem State.flagsAborted_done (s : State) : (s.flagsAborted).done = s.done := rfl
@[simp] theorem State.flagsAborted_err (s : State) : (s.flagsAborted).err = true := rfl
@[simp] theorem State.flagsAborted_pres (s : State) : (s.flagsAborted).pres = s.pres := rfl
@[simp] theorem State.flagsAborted_rbit (s : State) : (s.flagsAborted).rbit = s.rbit := rfl
@[simp] theorem State.flagsAborted_rej (s : State) : (s.flagsAborted).rej = s.rej := rfl
@[simp] theorem State.flagsAborted_ill (s : State) : (s.flagsAborted).ill = s.ill := rfl
@[simp] theorem State.flagsAborted_sr (s : State) : (s.flagsAborted).sr = s.sr := rfl
@[simp] theorem State.flagsAborted_temp (s : State) : (s.flagsAborted).temp = s.temp := rfl
@[simp] theorem State.flagsAborted_errcode (s : State) : (s.flagsAborted).errcode = s.errcode := rfl
@[simp] theorem State.flagsAborted_buf (s : State) : (s.flagsAborted).buf = s.buf := rfl
@[simp] theorem State.flagsAborted_drv (s : State) : (s.flagsAborted).drv = s.drv := rfl
@[simp] theorem State.flagsAborted_k (s : State) : (s.flagsAborted).k = s.k := rfl
@[simp] theorem State.flagsAborted_time (s : State) : (s.flagsAborted).time = s.time := rfl
@[simp] theorem State.flagsAborted_pending (s : State) : (s.flagsAborted).pending = s.pending := rfl
@[simp] theorem State.flagsAborted_draws (s : State) : (s.flagsAborted).draws = s.draws := rfl
@[simp] theorem State.flagsAborted_hostReads (s : State) : (s.flagsAborted).hostReads = s.hostReads := rfl

/-! ## `rejectBusy` -/

@[simp] theorem State.rejectBusy_cmd (s : State) : (s.rejectBusy).cmd = s.cmd := rfl
@[simp] theorem State.rejectBusy_busy (s : State) : (s.rejectBusy).busy = s.busy := rfl
@[simp] theorem State.rejectBusy_done (s : State) : (s.rejectBusy).done = s.done := rfl
@[simp] theorem State.rejectBusy_err (s : State) : (s.rejectBusy).err = s.err := rfl
@[simp] theorem State.rejectBusy_pres (s : State) : (s.rejectBusy).pres = s.pres := rfl
@[simp] theorem State.rejectBusy_rbit (s : State) : (s.rejectBusy).rbit = s.rbit := rfl
@[simp] theorem State.rejectBusy_rej (s : State) : (s.rejectBusy).rej = true := rfl
@[simp] theorem State.rejectBusy_ill (s : State) : (s.rejectBusy).ill = s.ill := rfl
@[simp] theorem State.rejectBusy_sr (s : State) : (s.rejectBusy).sr = s.sr := rfl
@[simp] theorem State.rejectBusy_temp (s : State) : (s.rejectBusy).temp = s.temp := rfl
@[simp] theorem State.rejectBusy_errcode (s : State) : (s.rejectBusy).errcode = s.errcode := rfl
@[simp] theorem State.rejectBusy_buf (s : State) : (s.rejectBusy).buf = s.buf := rfl
@[simp] theorem State.rejectBusy_drv (s : State) : (s.rejectBusy).drv = s.drv := rfl
@[simp] theorem State.rejectBusy_k (s : State) : (s.rejectBusy).k = s.k := rfl
@[simp] theorem State.rejectBusy_time (s : State) : (s.rejectBusy).time = s.time := rfl
@[simp] theorem State.rejectBusy_pending (s : State) : (s.rejectBusy).pending = s.pending := rfl
@[simp] theorem State.rejectBusy_draws (s : State) : (s.rejectBusy).draws = s.draws := rfl
@[simp] theorem State.rejectBusy_hostReads (s : State) : (s.rejectBusy).hostReads = s.hostReads := rfl

/-! ## `refuseIllegal` -/

@[simp] theorem State.refuseIllegal_cmd (s : State) : (s.refuseIllegal).cmd = s.cmd := rfl
@[simp] theorem State.refuseIllegal_busy (s : State) : (s.refuseIllegal).busy = s.busy := rfl
@[simp] theorem State.refuseIllegal_done (s : State) : (s.refuseIllegal).done = s.done := rfl
@[simp] theorem State.refuseIllegal_err (s : State) : (s.refuseIllegal).err = s.err := rfl
@[simp] theorem State.refuseIllegal_pres (s : State) : (s.refuseIllegal).pres = s.pres := rfl
@[simp] theorem State.refuseIllegal_rbit (s : State) : (s.refuseIllegal).rbit = s.rbit := rfl
@[simp] theorem State.refuseIllegal_rej (s : State) : (s.refuseIllegal).rej = s.rej := rfl
@[simp] theorem State.refuseIllegal_ill (s : State) : (s.refuseIllegal).ill = true := rfl
@[simp] theorem State.refuseIllegal_sr (s : State) : (s.refuseIllegal).sr = s.sr := rfl
@[simp] theorem State.refuseIllegal_temp (s : State) : (s.refuseIllegal).temp = s.temp := rfl
@[simp] theorem State.refuseIllegal_errcode (s : State) : (s.refuseIllegal).errcode = s.errcode := rfl
@[simp] theorem State.refuseIllegal_buf (s : State) : (s.refuseIllegal).buf = s.buf := rfl
@[simp] theorem State.refuseIllegal_drv (s : State) : (s.refuseIllegal).drv = s.drv := rfl
@[simp] theorem State.refuseIllegal_k (s : State) : (s.refuseIllegal).k = s.k := rfl
@[simp] theorem State.refuseIllegal_time (s : State) : (s.refuseIllegal).time = s.time := rfl
@[simp] theorem State.refuseIllegal_pending (s : State) : (s.refuseIllegal).pending = s.pending := rfl
@[simp] theorem State.refuseIllegal_draws (s : State) : (s.refuseIllegal).draws = s.draws := rfl
@[simp] theorem State.refuseIllegal_hostReads (s : State) : (s.refuseIllegal).hostReads = s.hostReads := rfl

/-! ## `raiseLineIO` -/

@[simp] theorem State.raiseLineIO_cmd (s : State) (c : Byte) : (s.raiseLineIO c).cmd = s.cmd := rfl
@[simp] theorem State.raiseLineIO_busy (s : State) (c : Byte) : (s.raiseLineIO c).busy = false := rfl
@[simp] theorem State.raiseLineIO_done (s : State) (c : Byte) : (s.raiseLineIO c).done = s.done := rfl
@[simp] theorem State.raiseLineIO_err (s : State) (c : Byte) : (s.raiseLineIO c).err = true := rfl
@[simp] theorem State.raiseLineIO_pres (s : State) (c : Byte) : (s.raiseLineIO c).pres = s.pres := rfl
@[simp] theorem State.raiseLineIO_rbit (s : State) (c : Byte) : (s.raiseLineIO c).rbit = s.rbit := rfl
@[simp] theorem State.raiseLineIO_rej (s : State) (c : Byte) : (s.raiseLineIO c).rej = s.rej := rfl
@[simp] theorem State.raiseLineIO_ill (s : State) (c : Byte) : (s.raiseLineIO c).ill = s.ill := rfl
@[simp] theorem State.raiseLineIO_sr (s : State) (c : Byte) : (s.raiseLineIO c).sr = s.sr := rfl
@[simp] theorem State.raiseLineIO_temp (s : State) (c : Byte) : (s.raiseLineIO c).temp = s.temp := rfl
@[simp] theorem State.raiseLineIO_errcode (s : State) (c : Byte) : (s.raiseLineIO c).errcode = c := rfl
@[simp] theorem State.raiseLineIO_buf (s : State) (c : Byte) : (s.raiseLineIO c).buf = s.buf := rfl
@[simp] theorem State.raiseLineIO_drv (s : State) (c : Byte) : (s.raiseLineIO c).drv = false := rfl
@[simp] theorem State.raiseLineIO_k (s : State) (c : Byte) : (s.raiseLineIO c).k = 0 := rfl
@[simp] theorem State.raiseLineIO_time (s : State) (c : Byte) : (s.raiseLineIO c).time = s.time := rfl
@[simp] theorem State.raiseLineIO_pending (s : State) (c : Byte) : (s.raiseLineIO c).pending = s.pending := rfl
@[simp] theorem State.raiseLineIO_draws (s : State) (c : Byte) : (s.raiseLineIO c).draws = s.draws := rfl
@[simp] theorem State.raiseLineIO_hostReads (s : State) (c : Byte) : (s.raiseLineIO c).hostReads = s.hostReads := rfl

/-! ## `complete` -/

@[simp] theorem State.complete_cmd (s : State) : (s.complete).cmd = s.cmd := rfl
@[simp] theorem State.complete_busy (s : State) : (s.complete).busy = false := rfl
@[simp] theorem State.complete_done (s : State) : (s.complete).done = true := rfl
@[simp] theorem State.complete_err (s : State) : (s.complete).err = s.err := rfl
@[simp] theorem State.complete_pres (s : State) : (s.complete).pres = s.pres := rfl
@[simp] theorem State.complete_rbit (s : State) : (s.complete).rbit = s.rbit := rfl
@[simp] theorem State.complete_rej (s : State) : (s.complete).rej = s.rej := rfl
@[simp] theorem State.complete_ill (s : State) : (s.complete).ill = s.ill := rfl
@[simp] theorem State.complete_sr (s : State) : (s.complete).sr = s.sr := rfl
@[simp] theorem State.complete_temp (s : State) : (s.complete).temp = if opField s.cmd = 9 then decodedWord s.buf else s.temp := rfl
@[simp] theorem State.complete_errcode (s : State) : (s.complete).errcode = s.errcode := rfl
@[simp] theorem State.complete_buf (s : State) : (s.complete).buf = s.buf := rfl
@[simp] theorem State.complete_drv (s : State) : (s.complete).drv = s.drv := rfl
@[simp] theorem State.complete_k (s : State) : (s.complete).k = 0 := rfl
@[simp] theorem State.complete_time (s : State) : (s.complete).time = s.time := rfl
@[simp] theorem State.complete_pending (s : State) : (s.complete).pending = s.pending := rfl
@[simp] theorem State.complete_draws (s : State) : (s.complete).draws = s.draws := rfl
@[simp] theorem State.complete_hostReads (s : State) : (s.complete).hostReads = s.hostReads := rfl

/-! ## `accept` -/

@[simp] theorem State.accept_cmd (s : State) (v : Word) (n : Nat) : (s.accept v n).cmd = v := rfl
@[simp] theorem State.accept_busy (s : State) (v : Word) (n : Nat) : (s.accept v n).busy = decide (n ≠ 0) := rfl
@[simp] theorem State.accept_done (s : State) (v : Word) (n : Nat) : (s.accept v n).done = decide (n = 0) := rfl
@[simp] theorem State.accept_err (s : State) (v : Word) (n : Nat) : (s.accept v n).err = false := rfl
@[simp] theorem State.accept_pres (s : State) (v : Word) (n : Nat) : (s.accept v n).pres = s.pres := rfl
@[simp] theorem State.accept_rbit (s : State) (v : Word) (n : Nat) : (s.accept v n).rbit = s.rbit := rfl
@[simp] theorem State.accept_rej (s : State) (v : Word) (n : Nat) : (s.accept v n).rej = false := rfl
@[simp] theorem State.accept_ill (s : State) (v : Word) (n : Nat) : (s.accept v n).ill = false := rfl
@[simp] theorem State.accept_sr (s : State) (v : Word) (n : Nat) : (s.accept v n).sr = s.sr := rfl
@[simp] theorem State.accept_temp (s : State) (v : Word) (n : Nat) : (s.accept v n).temp = s.temp := rfl
@[simp] theorem State.accept_errcode (s : State) (v : Word) (n : Nat) : (s.accept v n).errcode = s.errcode := rfl
@[simp] theorem State.accept_buf (s : State) (v : Word) (n : Nat) : (s.accept v n).buf = s.buf := rfl
@[simp] theorem State.accept_drv (s : State) (v : Word) (n : Nat) : (s.accept v n).drv = s.drv := rfl
@[simp] theorem State.accept_k (s : State) (v : Word) (n : Nat) : (s.accept v n).k = 0 := rfl
@[simp] theorem State.accept_time (s : State) (v : Word) (n : Nat) : (s.accept v n).time = s.time := rfl
@[simp] theorem State.accept_pending (s : State) (v : Word) (n : Nat) : (s.accept v n).pending = s.pending := rfl
@[simp] theorem State.accept_draws (s : State) (v : Word) (n : Nat) : (s.accept v n).draws = s.draws := rfl
@[simp] theorem State.accept_hostReads (s : State) (v : Word) (n : Nat) : (s.accept v n).hostReads = s.hostReads := rfl

/-! ## `tickTime` -/

@[simp] theorem State.tickTime_cmd (s : State) : (s.tickTime).cmd = s.cmd := rfl
@[simp] theorem State.tickTime_busy (s : State) : (s.tickTime).busy = s.busy := rfl
@[simp] theorem State.tickTime_done (s : State) : (s.tickTime).done = s.done := rfl
@[simp] theorem State.tickTime_err (s : State) : (s.tickTime).err = s.err := rfl
@[simp] theorem State.tickTime_pres (s : State) : (s.tickTime).pres = s.pres := rfl
@[simp] theorem State.tickTime_rbit (s : State) : (s.tickTime).rbit = s.rbit := rfl
@[simp] theorem State.tickTime_rej (s : State) : (s.tickTime).rej = s.rej := rfl
@[simp] theorem State.tickTime_ill (s : State) : (s.tickTime).ill = s.ill := rfl
@[simp] theorem State.tickTime_sr (s : State) : (s.tickTime).sr = s.sr := rfl
@[simp] theorem State.tickTime_temp (s : State) : (s.tickTime).temp = s.temp := rfl
@[simp] theorem State.tickTime_errcode (s : State) : (s.tickTime).errcode = s.errcode := rfl
@[simp] theorem State.tickTime_buf (s : State) : (s.tickTime).buf = s.buf := rfl
@[simp] theorem State.tickTime_drv (s : State) : (s.tickTime).drv = s.drv := rfl
@[simp] theorem State.tickTime_k (s : State) : (s.tickTime).k = s.k := rfl
@[simp] theorem State.tickTime_time (s : State) : (s.tickTime).time = s.time + 1 := rfl
@[simp] theorem State.tickTime_pending (s : State) : (s.tickTime).pending = s.pending := rfl
@[simp] theorem State.tickTime_draws (s : State) : (s.tickTime).draws = s.draws := rfl
@[simp] theorem State.tickTime_hostReads (s : State) : (s.tickTime).hostReads = s.hostReads := rfl

/-! ## `hardwareReset` -/

@[simp] theorem State.hardwareReset_cmd (s : State) : (s.hardwareReset).cmd = State.reset.cmd := rfl
@[simp] theorem State.hardwareReset_busy (s : State) : (s.hardwareReset).busy = State.reset.busy := rfl
@[simp] theorem State.hardwareReset_done (s : State) : (s.hardwareReset).done = State.reset.done := rfl
@[simp] theorem State.hardwareReset_err (s : State) : (s.hardwareReset).err = State.reset.err := rfl
@[simp] theorem State.hardwareReset_pres (s : State) : (s.hardwareReset).pres = State.reset.pres := rfl
@[simp] theorem State.hardwareReset_rbit (s : State) : (s.hardwareReset).rbit = State.reset.rbit := rfl
@[simp] theorem State.hardwareReset_rej (s : State) : (s.hardwareReset).rej = State.reset.rej := rfl
@[simp] theorem State.hardwareReset_ill (s : State) : (s.hardwareReset).ill = State.reset.ill := rfl
@[simp] theorem State.hardwareReset_sr (s : State) : (s.hardwareReset).sr = State.reset.sr := rfl
@[simp] theorem State.hardwareReset_temp (s : State) : (s.hardwareReset).temp = State.reset.temp := rfl
@[simp] theorem State.hardwareReset_errcode (s : State) : (s.hardwareReset).errcode = State.reset.errcode := rfl
@[simp] theorem State.hardwareReset_buf (s : State) : (s.hardwareReset).buf = State.reset.buf := rfl
@[simp] theorem State.hardwareReset_drv (s : State) : (s.hardwareReset).drv = State.reset.drv := rfl
@[simp] theorem State.hardwareReset_k (s : State) : (s.hardwareReset).k = State.reset.k := rfl
@[simp] theorem State.hardwareReset_time (s : State) : (s.hardwareReset).time = State.reset.time := rfl
@[simp] theorem State.hardwareReset_pending (s : State) : (s.hardwareReset).pending = s.pending := rfl
@[simp] theorem State.hardwareReset_draws (s : State) : (s.hardwareReset).draws = s.draws := rfl
@[simp] theorem State.hardwareReset_hostReads (s : State) : (s.hardwareReset).hostReads = s.hostReads := rfl

end Sys2Proof.Machine
end

