-- ==== Sys2Proof/Laws/Ops.lean ====
section
/-! SUPPORT. What each shared operation can do, said once: a sample, an event, the end of a tick, a tick of a
plan, the issue of a command. -/

namespace Sys2Proof.Machine

/-! ## The line -/

@[simp] theorem lineLevel_eq_low (drv dev : Bool) : lineLevel drv dev = .low ↔ (drv || dev) = true := by
  cases drv <;> cases dev <;> simp [lineLevel]

@[simp] theorem lineLevel_eq_high (drv dev : Bool) : lineLevel drv dev = .high ↔ (drv || dev) = false := by
  cases drv <;> cases dev <;> simp [lineLevel]

/-! ## A sample (40_bus_bit.md R115) -/

@[simp] theorem State.sampled_presence (s : State) (lvl : Level) :
    s.sampled .presence lvl = { s with pres := decide (lvl = .low) } := rfl

@[simp] theorem State.sampled_bit_none (s : State) (j : Option BufIndex) (lvl : Level) :
    s.sampled (.bit none j) lvl = { s with rbit := decide (lvl = .high) } := rfl

@[simp] theorem State.sampled_bit_some_none (s : State) (i : BitIndex) (lvl : Level) :
    s.sampled (.bit (some i) none) lvl =
      { s with rbit := decide (lvl = .high), sr := setBit s.sr i (decide (lvl = .high)) } := rfl

theorem State.sampled_bit_some_some (s : State) (i : BitIndex) (j : BufIndex) (lvl : Level) :
    s.sampled (.bit (some i) (some j)) lvl =
      { s with
        rbit := decide (lvl = .high), sr := setBit s.sr i (decide (lvl = .high)),
        buf := if i = 7 then bufSet s.buf j (setBit s.sr i (decide (lvl = .high))) else s.buf } := rfl

/-- A sample writes `PRES`, `RBIT`, `SR` and `BUF` and nothing else. -/
theorem State.sampled_frame (s : State) (d : Dest) (lvl : Level) : ∃ pres rbit sr buf,
    s.sampled d lvl = { s with pres := pres, rbit := rbit, sr := sr, buf := buf } := by
  match d with
  | .presence => exact ⟨_, s.rbit, s.sr, s.buf, rfl⟩
  | .bit none _ => exact ⟨s.pres, _, s.sr, s.buf, rfl⟩
  | .bit (some _) none => exact ⟨s.pres, _, _, s.buf, rfl⟩
  | .bit (some _) (some _) => exact ⟨s.pres, _, _, _, rfl⟩

/-- An event writes `drv`, or what a sample writes, and nothing else. -/
theorem State.performEvent_frame (s : State) (dev : Bool) (e : LineEvent) : ∃ pres rbit sr buf drv,
    s.performEvent dev e = { s with pres := pres, rbit := rbit, sr := sr, buf := buf, drv := drv } := by
  match e with
  | .L => exact ⟨s.pres, s.rbit, s.sr, s.buf, true, rfl⟩
  | .H => exact ⟨s.pres, s.rbit, s.sr, s.buf, false, rfl⟩
  | .S d =>
    obtain ⟨a, b, c, m, h⟩ := s.sampled_frame d (lineLevel s.drv dev)
    exact ⟨a, b, c, m, s.drv, h⟩

@[simp] theorem State.performEvent_L (s : State) (dev : Bool) :
    s.performEvent dev .L = { s with drv := true } := rfl
@[simp] theorem State.performEvent_H (s : State) (dev : Bool) :
    s.performEvent dev .H = { s with drv := false } := rfl
@[simp] theorem State.performEvent_S (s : State) (dev : Bool) (d : Dest) :
    s.performEvent dev (.S d) = s.sampled d (lineLevel s.drv dev) := rfl

/-! ### The fields an event leaves alone -/

section
variable (s : State) (dev : Bool) (e : LineEvent)

@[simp] theorem State.performEvent_cmd : (s.performEvent dev e).cmd = s.cmd := by
  obtain ⟨_, _, _, _, _, h⟩ := s.performEvent_frame dev e; rw [h]
@[simp] theorem State.performEvent_busy : (s.performEvent dev e).busy = s.busy := by
  obtain ⟨_, _, _, _, _, h⟩ := s.performEvent_frame dev e; rw [h]
@[simp] theorem State.performEvent_done : (s.performEvent dev e).done = s.done := by
  obtain ⟨_, _, _, _, _, h⟩ := s.performEvent_frame dev e; rw [h]
@[simp] theorem State.performEvent_err : (s.performEvent dev e).err = s.err := by
  obtain ⟨_, _, _, _, _, h⟩ := s.performEvent_frame dev e; rw [h]
@[simp] theorem State.performEvent_rej : (s.performEvent dev e).rej = s.rej := by
  obtain ⟨_, _, _, _, _, h⟩ := s.performEvent_frame dev e; rw [h]
@[simp] theorem State.performEvent_ill : (s.performEvent dev e).ill = s.ill := by
  obtain ⟨_, _, _, _, _, h⟩ := s.performEvent_frame dev e; rw [h]
@[simp] theorem State.performEvent_temp : (s.performEvent dev e).temp = s.temp := by
  obtain ⟨_, _, _, _, _, h⟩ := s.performEvent_frame dev e; rw [h]
@[simp] theorem State.performEvent_errcode : (s.performEvent dev e).errcode = s.errcode := by
  obtain ⟨_, _, _, _, _, h⟩ := s.performEvent_frame dev e; rw [h]
@[simp] theorem State.performEvent_k : (s.performEvent dev e).k = s.k := by
  obtain ⟨_, _, _, _, _, h⟩ := s.performEvent_frame dev e; rw [h]
@[simp] theorem State.performEvent_time : (s.performEvent dev e).time = s.time := by
  obtain ⟨_, _, _, _, _, h⟩ := s.performEvent_frame dev e; rw [h]
@[simp] theorem State.performEvent_pending : (s.performEvent dev e).pending = s.pending := by
  obtain ⟨_, _, _, _, _, h⟩ := s.performEvent_frame dev e; rw [h]
@[simp] theorem State.performEvent_draws : (s.performEvent dev e).draws = s.draws := by
  obtain ⟨_, _, _, _, _, h⟩ := s.performEvent_frame dev e; rw [h]
@[simp] theorem State.performEvent_hostReads : (s.performEvent dev e).hostReads = s.hostReads := by
  obtain ⟨_, _, _, _, _, h⟩ := s.performEvent_frame dev e; rw [h]

end

/-! ## The end of a tick -/

theorem State.advance_last {s : State} {n : Nat} (h : s.k.toNat + 1 = n) : s.advance n = s.complete := by
  simp [State.advance, h]

theorem State.advance_inside {s : State} {n : Nat} (h : s.k.toNat + 1 ≠ n) :
    s.advance n = { s with k := s.k + 1 } := by
  simp [State.advance, h]

/-! ## A tick of a plan (R113): it aborts, completes or moves on -/

/-- The state after the event of this offset, if there is one. -/
def State.afterEvent (s : State) (p : List Slot) (x : TickInput) : State :=
  match eventAt p s.k.toNat with
  | some e => s.performEvent x.dev e
  | none => s

theorem State.tickPlan_cases (s : State) (p : List Slot) (x : TickInput) :
    (eventAt p s.k.toNat ≠ none ∧ x.lineErr = true ∧ s.tickPlan p x = s.raiseLineIO x.lineErrCode) ∨
    ((eventAt p s.k.toNat ≠ none → x.lineErr = false) ∧
      s.tickPlan p x = (s.afterEvent p x).advance (planLength p)) := by
  unfold State.tickPlan State.afterEvent
  cases h : eventAt p s.k.toNat with
  | none => exact .inr ⟨fun h => absurd rfl h, rfl⟩
  | some e =>
    cases hx : x.lineErr
    · exact .inr ⟨fun _ => rfl, by simp⟩
    · exact .inl ⟨by simp, rfl, by simp⟩

theorem State.afterEvent_frame (s : State) (p : List Slot) (x : TickInput) : ∃ pres rbit sr buf drv,
    s.afterEvent p x = { s with pres := pres, rbit := rbit, sr := sr, buf := buf, drv := drv } := by
  unfold State.afterEvent
  split
  · exact s.performEvent_frame _ _
  · exact ⟨s.pres, s.rbit, s.sr, s.buf, s.drv, rfl⟩

@[simp] theorem State.afterEvent_k (s : State) (p : List Slot) (x : TickInput) :
    (s.afterEvent p x).k = s.k := by
  obtain ⟨_, _, _, _, _, h⟩ := s.afterEvent_frame p x
  rw [h]

/-! ## Tick -/

theorem tick_idle {x : TickInput} {s : State} (h : s.busy = false) : tick x s = .next s.tickTime := by
  simp [tick, h]

theorem tick_busy {x : TickInput} {s : State} {i : Instr} (h : s.busy = true) (hd : decode s.cmd = some i) :
    tick x s = .next (s.tickPlan (plan i s.buf) x).tickTime := by
  simp [tick, h, hd]

/-! ## Issue (20_memory.md R64) -/

theorem State.issue_busy {s : State} {i : Instr} {p : List Slot} (h : s.busy = true) :
    s.issue i p = s.rejectBusy := by simp [State.issue, h]

theorem State.issue_idle {s : State} {i : Instr} {p : List Slot} (h : s.busy = false)
    (hw : i.wellFormed = true) : s.issue i p = s.accept (encode i) (planLength p) := by
  simp [State.issue, h, hw]

theorem State.issue_illFormed {s : State} {i : Instr} {p : List Slot} (h : s.busy = false)
    (hw : i.wellFormed = false) : s.issue i p = s.refuseIllegal := by
  simp [State.issue, h, hw]

/-- Every command's meaning is the issue of that command with its plan. -/
theorem exec_eq_issue (i : Instr) (s : State) : exec i s = .next (s.issue i (plan i s.buf)) := by
  cases i <;> rfl

end Sys2Proof.Machine
end

