-- ==== Sys2Proof/Laws/PerInstr.lean ====
section
/-! SUPPORT. One statement about the syntax of every command, one lemma for each: its word has the fixed bits
of its row of the table (spec/30_encoding.md R92). -/

namespace Sys2Proof.Laws.MatchMask

/-- The word of a command, masked with its row's `mask`, is its row's `match` (30_encoding.md R92). -/
def Statement (i : Instr) : Prop := encode i &&& i.matchMask.2 = i.matchMask.1

theorem reset : Statement .reset := by unfold Statement; decide
theorem writeBit (b : Bool) : Statement (.writeBit b) := by unfold Statement; revert b; decide
theorem readBit : Statement .readBit := by unfold Statement; decide

theorem writeByte (d : Byte) : Statement (.writeByte d) := by
  apply BitVec.eq_of_getLsbD_eq
  intro i hi
  have hf : (0x04#8).getLsbD (i - 8) = decide (i = 10) := by
    interval_cases i <;> rfl
  have hm : (0xFF00 : Word).getLsbD i = decide (8 ≤ i) := by interval_cases i <;> rfl
  have hr : (0x0400 : Word).getLsbD i = decide (i = 10) := by interval_cases i <;> rfl
  simp only [Instr.matchMask, encode_writeByte, BitVec.getLsbD_and, BitVec.getLsbD_append, hf, hm, hr]
  by_cases h : i < 8
  · rw [if_pos h, decide_eq_false (by omega), decide_eq_false (by omega), Bool.and_false]
  · rw [if_neg h, decide_eq_true (show 8 ≤ i by omega), Bool.and_true]

theorem readByte : Statement .readByte := by unfold Statement; decide
theorem writeBytes (n : BitVec 4) : Statement (.writeBytes n) := by unfold Statement; revert n; decide
theorem readBytes (n : BitVec 4) : Statement (.readBytes n) := by unfold Statement; revert n; decide
theorem convert : Statement .convert := by unfold Statement; decide
theorem readTemp : Statement .readTemp := by unfold Statement; decide

end Sys2Proof.Laws.MatchMask
end

