-- ==== Sys2Proof/Laws/Run.lean ====
section
/-! SUPPORT. A run of a command that no failure cuts short, slot by slot: the state after the last tick is
`planEffect` of its plan, completed; and what the run drives, tick by tick. -/

namespace Sys2Proof.Machine

/-! ## Plans while they run -/

/-- Slots `W(b)` never sample. -/
theorem eventAt_writes {p : List Slot} (h : ∀ sl ∈ p, ∃ b, sl = .w b) (o : Nat) (d : Dest) :
    eventAt p o ≠ some (.S d) := by
  induction p generalizing o with
  | nil => simp [eventAt]
  | cons sl p ih =>
    obtain ⟨b, rfl⟩ := h sl (by simp)
    simp only [eventAt, Slot.event_w]
    split
    · split <;> (try split) <;> simp
    · exact ih (fun sl hs => h sl (by simp [hs])) _

theorem planWriteBytes_writes (n : BitVec 4) (m : Buffer) : ∀ sl ∈ planWriteBytes n m, ∃ b, sl = .w b := by
  intro sl h
  simp only [planWriteBytes, List.mem_flatMap, writeByteSlots, List.mem_map] at h
  obtain ⟨_, _, i, _, rfl⟩ := h
  exact ⟨_, rfl⟩

/-- The plan of the command in flight is the same after every event of it: only a written sequence depends on
`BUF`, and it samples nothing (40_bus_bit.md R114). -/
theorem plan_afterEvent (i : Instr) (s : State) (x : TickInput) :
    plan i (s.afterEvent (plan i s.buf) x).buf = plan i s.buf := by
  cases i <;> try rfl
  case writeBytes n =>
    unfold State.afterEvent
    cases he : eventAt (plan (.writeBytes n) s.buf) s.k.toNat with
    | none => rfl
    | some e =>
      cases e with
      | L => rfl
      | H => rfl
      | S d => exact absurd he (eventAt_writes (planWriteBytes_writes n s.buf) _ _)

/-! ## Ticks without failure -/

/-- A tick of a plan without failure and without completion. -/
def quietTick (p : List Slot) (x : TickInput) (s : State) : State :=
  { s.afterEvent p x with k := s.k + 1, time := s.time + 1 }

/-- `n` such ticks, the inputs given by offset. -/
def quietRun (p : List Slot) (f : Nat → TickInput) : Nat → State → State
  | 0, s => s
  | n + 1, s => quietRun p f n (quietTick p (f s.k.toNat) s)

theorem quietRun_add (p : List Slot) (f : Nat → TickInput) (m n : Nat) (s : State) :
    quietRun p f (m + n) s = quietRun p f n (quietRun p f m s) := by
  induction m generalizing s with
  | zero => simp [quietRun]
  | succ m ih => rw [Nat.succ_add]; exact ih _

/-- A command is in flight. -/
structure InFlight (i : Instr) (p : List Slot) (s : State) : Prop where
  busy : s.busy = true
  cmd : decode s.cmd = some i
  plan : plan i s.buf = p

theorem InFlight.quietTick {i : Instr} {p : List Slot} {s : State} (h : InFlight i p s) (x : TickInput) :
    InFlight i p (quietTick p x s) := by
  have hp := plan_afterEvent i s x
  obtain ⟨a, b, c, m, d, e⟩ := s.afterEvent_frame p x
  rw [h.plan] at hp
  refine ⟨?_, ?_, ?_⟩
  · simp [Machine.quietTick, e, h.busy]
  · simp [Machine.quietTick, e, h.cmd]
  · simpa [Machine.quietTick] using hp

theorem tick_inside {i : Instr} {p : List Slot} {s : State} {x : TickInput} (h : InFlight i p s)
    (hk : s.k.toNat + 1 < planLength p) (hx : eventAt p s.k.toNat ≠ none → x.lineErr = false) :
    tick x s = .next (quietTick p x s) := by
  rw [tick_busy h.busy h.cmd, h.plan]
  rcases s.tickPlan_cases p x with ⟨he, hl, _⟩ | ⟨_, ht⟩
  · rw [hx he] at hl; cases hl
  · rw [ht, State.advance_inside (by simp; omega)]
    obtain ⟨a, b, c, m, d, e⟩ := s.afterEvent_frame p x
    simp [quietTick, e, State.tickTime]

theorem tick_last {i : Instr} {p : List Slot} {s : State} {x : TickInput} (h : InFlight i p s)
    (hk : s.k.toNat + 1 = planLength p) (hx : eventAt p s.k.toNat ≠ none → x.lineErr = false) :
    tick x s = .next (quietTick p x s).complete := by
  rw [tick_busy h.busy h.cmd, h.plan]
  rcases s.tickPlan_cases p x with ⟨he, hl, _⟩ | ⟨_, ht⟩
  · rw [hx he] at hl; cases hl
  · rw [ht, State.advance_last (by simp; omega)]
    obtain ⟨a, b, c, m, d, e⟩ := s.afterEvent_frame p x
    simp [quietTick, e, State.tickTime, State.complete, State.flagsCompleted]

theorem quietTick_k (p : List Slot) (x : TickInput) (s : State) : (quietTick p x s).k = s.k + 1 := rfl

theorem toNat_succ {k : Position} (h : k.toNat + 1 < 8192) : (k + 1).toNat = k.toNat + 1 := by
  rw [BitVec.toNat_add]
  simp
  omega

/-- A run of ticks inside a plan. -/
theorem runTicks_inside {i : Instr} {p : List Slot} {f : Nat → TickInput} (hT : planLength p ≤ 6328) :
    ∀ (ins : List TickInput) (s : State), InFlight i p s → s.k.toNat + ins.length < planLength p →
      (∀ o x, ins[o]? = some x → f (s.k.toNat + o) = x) →
      (∀ o x, ins[o]? = some x → eventAt p (s.k.toNat + o) ≠ none → x.lineErr = false) →
      runTicks ins s = .next (quietRun p f ins.length s) := by
  intro ins
  induction ins with
  | nil => intro s _ _ _ _; rfl
  | cons x ins ih =>
    intro s h hk hf hc
    simp only [List.length_cons] at hk
    have hk1 : (s.k + 1).toNat = s.k.toNat + 1 := toNat_succ (by omega)
    have hfx : f s.k.toNat = x := hf 0 x rfl
    rw [runTicks, tick_inside h (by omega) (hc 0 x rfl)]
    simp only [List.length_cons, quietRun, hfx]
    refine ih _ (h.quietTick x) ?_ ?_ ?_
    · rw [quietTick_k, hk1]; omega
    · intro o y hy
      rw [quietTick_k, hk1, show s.k.toNat + 1 + o = s.k.toNat + (o + 1) by omega]
      exact hf (o + 1) y (by simpa using hy)
    · intro o y hy
      rw [quietTick_k, hk1, show s.k.toNat + 1 + o = s.k.toNat + (o + 1) by omega]
      exact hc (o + 1) y (by simpa using hy)

/-- A run of ticks to the end of a plan. -/
theorem runTicks_to_end {i : Instr} {p : List Slot} {f : Nat → TickInput} (hT : planLength p ≤ 6328) :
    ∀ (ins : List TickInput) (s : State), InFlight i p s → ins ≠ [] →
      s.k.toNat + ins.length = planLength p →
      (∀ o x, ins[o]? = some x → f (s.k.toNat + o) = x) →
      (∀ o x, ins[o]? = some x → eventAt p (s.k.toNat + o) ≠ none → x.lineErr = false) →
      runTicks ins s = .next (quietRun p f ins.length s).complete := by
  intro ins
  induction ins with
  | nil => intro s _ h; exact absurd rfl h
  | cons x ins ih =>
    intro s h _ hk hf hc
    simp only [List.length_cons] at hk
    have hfx : f s.k.toNat = x := hf 0 x rfl
    cases ins with
    | nil =>
      rw [runTicks, tick_last h (by simpa using hk) (hc 0 x rfl)]
      simp [quietRun, hfx, runTicks]
    | cons y ins =>
      simp only [List.length_cons] at hk ih
      have hk1 : (s.k + 1).toNat = s.k.toNat + 1 := toNat_succ (by omega)
      rw [runTicks, tick_inside h (by omega) (hc 0 x rfl)]
      rw [List.length_cons, quietRun, hfx]
      refine ih _ (h.quietTick x) (by simp) ?_ ?_ ?_
      · rw [quietTick_k, hk1]; omega
      · intro o z hz
        rw [quietTick_k, hk1, show s.k.toNat + 1 + o = s.k.toNat + (o + 1) by omega]
        exact hf (o + 1) z (by simpa using hz)
      · intro o z hz
        rw [quietTick_k, hk1, show s.k.toNat + 1 + o = s.k.toNat + (o + 1) by omega]
        exact hc (o + 1) z (by simpa using hz)

/-! ## Slots -/

theorem succ_add_ofNat (k : Position) (n : Nat) :
    k + 1 + BitVec.ofNat 13 n = k + BitVec.ofNat 13 (n + 1) := by
  rw [BitVec.add_assoc, Nat.add_comm n 1, BitVec.ofNat_add]
  rfl

theorem ofNat_add_ofNat (k : Position) (m n : Nat) :
    k + BitVec.ofNat 13 m + BitVec.ofNat 13 n = k + BitVec.ofNat 13 (m + n) := by
  rw [BitVec.add_assoc, BitVec.ofNat_add]

theorem toNat_add_ofNat {k : Position} {n : Nat} (h : k.toNat + n < 8192) :
    (k + BitVec.ofNat 13 n).toNat = k.toNat + n := by
  rw [BitVec.toNat_add, BitVec.toNat_ofNat]
  omega

/-- A stretch of ticks without an event only counts. -/
theorem quietRun_wait {p : List Slot} {f : Nat → TickInput} : ∀ (n : Nat) (s : State),
    s.k.toNat + n < 8192 → (∀ o, o < n → eventAt p (s.k.toNat + o) = none) →
    quietRun p f n s = { s with k := s.k + BitVec.ofNat 13 n, time := s.time + n } := by
  intro n
  induction n with
  | zero => intro s _ _; simp [quietRun]
  | succ n ih =>
    intro s hk he
    have hk1 : (s.k + 1).toNat = s.k.toNat + 1 := toNat_succ (by omega)
    have h0 : quietTick p (f s.k.toNat) s = { s with k := s.k + 1, time := s.time + 1 } := by
      have : eventAt p s.k.toNat = none := he 0 (by omega)
      simp [quietTick, State.afterEvent, this]
    rw [quietRun, h0, ih _ (by simp only [hk1]; omega)]
    · have := succ_add_ofNat s.k n
      have ht : s.time + 1 + n = s.time + (n + 1) := by omega
      simp only [this, ht]
    · intro o ho
      simp only [hk1]
      rw [show s.k.toNat + 1 + o = s.k.toNat + (o + 1) by omega]
      exact he (o + 1) (by omega)

/-- An event and the stretch after it. -/
theorem quietRun_event {p : List Slot} {f : Nat → TickInput} {e : LineEvent} (n : Nat) (s : State)
    (hk : s.k.toNat + n + 1 < 8192) (he : eventAt p s.k.toNat = some e)
    (hw : ∀ o, o < n → eventAt p (s.k.toNat + 1 + o) = none) :
    quietRun p f (n + 1) s =
      { s.performEvent (f s.k.toNat).dev e with
        k := s.k + BitVec.ofNat 13 (n + 1), time := s.time + (n + 1) } := by
  have hk1 : (s.k + 1).toNat = s.k.toNat + 1 := toNat_succ (by omega)
  have h0 : quietTick p (f s.k.toNat) s =
      { s.performEvent (f s.k.toNat).dev e with k := s.k + 1, time := s.time + 1 } := by
    simp [quietTick, State.afterEvent, he]
  rw [quietRun, h0, quietRun_wait n]
  · have := succ_add_ofNat s.k n
    have ht : s.time + 1 + n = s.time + (n + 1) := by omega
    simp only [this, ht]
  · simp only [hk1]; omega
  · intro o ho
    simp only [hk1]
    exact hw o ho

/-- What a whole slot from offset `base` does, `dev` given by offset. -/
def slotEffect (dev : Nat → Bool) (base : Nat) (sl : Slot) (s : State) : State :=
  match sl with
  | .rst => { s with drv := false, pres := dev (base + 545) }
  | .w _ => { s with drv := false }
  | .r i j => { s with drv := false }.sampled (.bit i j) (lineLevel false (dev (base + 21)))

/-- What a whole plan from offset `base` does. -/
def planEffect (dev : Nat → Bool) : Nat → List Slot → State → State
  | _, [], s => s
  | base, sl :: p, s => planEffect dev (base + sl.length) p (slotEffect dev base sl s)

theorem planEffect_append (dev : Nat → Bool) (base : Nat) (p q : List Slot) (s : State) :
    planEffect dev base (p ++ q) s = planEffect dev (base + planLength p) q (planEffect dev base p s) := by
  induction p generalizing base s with
  | nil => rfl
  | cons sl p ih =>
    simp only [List.cons_append, planEffect, planLength_cons, ih]
    rw [Nat.add_assoc]

/-- The effect of a plan and the clocks `k` and `time` do not touch each other. -/
theorem planEffect_clock (dev : Nat → Bool) (base : Nat) (p : List Slot) (s : State) (k : Position)
    (t : Nat) : planEffect dev base p { s with k := k, time := t } =
      { planEffect dev base p s with k := k, time := t } := by
  induction p generalizing base s with
  | nil => rfl
  | cons sl p ih =>
    have : slotEffect dev base sl { s with k := k, time := t } =
        { slotEffect dev base sl s with k := k, time := t } := by
      match sl with
      | .rst => rfl
      | .w _ => rfl
      | .r none _ => rfl
      | .r (some _) none => rfl
      | .r (some _) (some _) => rfl
    simp only [planEffect, this, ih]

theorem slotEffect_frame (dev : Nat → Bool) (base : Nat) (sl : Slot) (s : State) :
    ∃ pres rbit sr buf, slotEffect dev base sl s =
      { s with pres := pres, rbit := rbit, sr := sr, buf := buf, drv := false } := by
  cases sl with
  | rst => exact ⟨_, s.rbit, s.sr, s.buf, rfl⟩
  | w b => exact ⟨s.pres, s.rbit, s.sr, s.buf, rfl⟩
  | r i j =>
    obtain ⟨a, b, c, m, h⟩ := State.sampled_frame { s with drv := false } (.bit i j)
      (lineLevel false (dev (base + 21)))
    exact ⟨a, b, c, m, h⟩

/-- One phase of a slot: the event at its offset `a` and the `n` ticks after it that have none. -/
theorem quietRun_phase {p : List Slot} {f : Nat → TickInput} {sl : Slot} {base : Nat}
    (ev : ∀ o, o < sl.length → eventAt p (base + o) = sl.event o) (hb : base + sl.length < 8192)
    (e : LineEvent) (a n : Nat) (s : State) (hk : s.k.toNat = base + a) (hn : a + n < sl.length)
    (he : sl.event a = some e) (hw : ∀ o, a < o → o ≤ a + n → sl.event o = none) :
    quietRun p f (n + 1) s =
      { s.performEvent (f (base + a)).dev e with
        k := s.k + BitVec.ofNat 13 (n + 1), time := s.time + (n + 1) } := by
  rw [quietRun_event n s (by omega) (e := e), hk]
  · rw [hk, ev a (by omega), he]
  · intro o ho
    rw [hk, show base + a + 1 + o = base + (a + 1 + o) by omega, ev _ (by omega)]
    exact hw _ (by omega) (by omega)

/-- A slot, run from its first offset to its last. -/
theorem quietRun_slot {f : Nat → TickInput} (pre : List Slot) (sl : Slot) (post : List Slot) (s : State)
    (hk : s.k.toNat = planLength pre) (hb : planLength pre + sl.length < 8192) :
    quietRun (pre ++ sl :: post) f sl.length s =
      { slotEffect (fun o => (f o).dev) (planLength pre) sl s with
        k := s.k + BitVec.ofNat 13 sl.length, time := s.time + sl.length } := by
  have ph := @quietRun_phase (pre ++ sl :: post) f sl (planLength pre)
    (fun o ho => eventAt_slot pre sl post ho) hb
  have kk : ∀ n, n ≤ 960 → planLength pre + n < 8192 →
      (s.k + BitVec.ofNat 13 n).toNat = planLength pre + n := fun n _ h => by
    rw [toNat_add_ofNat (by omega), hk]
  cases sl with
  | rst =>
    simp only [Slot.length_rst, Slot.event_rst] at ph hb ⊢
    rw [show 960 = (479 + 1) + ((64 + 1) + (414 + 1)) from rfl, quietRun_add, quietRun_add,
      ph .L 0 479 s (by omega) (by omega) rfl
        (by intro o h1 h2; rw [if_neg (by omega), if_neg (by omega), if_neg (by omega)]),
      ph .H 480 64 _ (by simpa using kk 480 (by omega) (by omega)) (by omega) rfl
        (by intro o h1 h2; rw [if_neg (by omega), if_neg (by omega), if_neg (by omega)]),
      ph (.S .presence) 545 414 _
        (by simpa [ofNat_add_ofNat] using kk 545 (by omega) (by omega)) (by omega) rfl
        (by intro o h1 h2; rw [if_neg (by omega), if_neg (by omega), if_neg (by omega)])]
    simp [slotEffect, ofNat_add_ofNat, Nat.add_assoc]
  | w b =>
    cases b with
    | true =>
      simp only [Slot.length_w, Slot.event_w, if_true] at ph hb ⊢
      rw [show 61 = (0 + 1) + (59 + 1) from rfl, quietRun_add,
        ph .L 0 0 s (by omega) (by omega) rfl (by intro o h1 h2; omega),
        ph .H 1 59 _ (by simpa using kk 1 (by omega) (by omega)) (by omega) rfl
          (by intro o h1 h2; rw [if_neg (by omega), if_neg (by omega)])]
      simp [slotEffect, ofNat_add_ofNat, Nat.add_assoc]
    | false =>
      simp only [Slot.length_w, Slot.event_w, Bool.false_eq_true, if_false] at ph hb ⊢
      rw [show 61 = (59 + 1) + (0 + 1) from rfl, quietRun_add,
        ph .L 0 59 s (by omega) (by omega) rfl
          (by intro o h1 h2; rw [if_neg (by omega), if_neg (by omega)]),
        ph .H 60 0 _ (by simpa using kk 60 (by omega) (by omega)) (by omega) rfl
          (by intro o h1 h2; omega)]
      simp [slotEffect, ofNat_add_ofNat, Nat.add_assoc]
  | r i j =>
    simp only [Slot.length_r, Slot.event_r] at ph hb ⊢
    rw [show 61 = (0 + 1) + ((19 + 1) + (39 + 1)) from rfl, quietRun_add, quietRun_add,
      ph .L 0 0 s (by omega) (by omega) rfl (by intro o h1 h2; omega),
      ph .H 1 19 _ (by simpa using kk 1 (by omega) (by omega)) (by omega) rfl
        (by intro o h1 h2; rw [if_neg (by omega), if_neg (by omega), if_neg (by omega)]),
      ph (.S (.bit i j)) 21 39 _
        (by simpa [ofNat_add_ofNat] using kk 21 (by omega) (by omega)) (by omega) rfl
        (by intro o h1 h2; rw [if_neg (by omega), if_neg (by omega), if_neg (by omega)])]
    cases i <;> cases j <;> simp [slotEffect, ofNat_add_ofNat, Nat.add_assoc, State.sampled_bit_some_some]

/-- A plan, run from one of its slots to its end. -/
theorem quietRun_plan {f : Nat → TickInput} (post : List Slot) : ∀ (pre : List Slot) (s : State),
    s.k.toNat = planLength pre → planLength (pre ++ post) < 8192 →
    quietRun (pre ++ post) f (planLength post) s =
      { planEffect (fun o => (f o).dev) (planLength pre) post s with
        k := s.k + BitVec.ofNat 13 (planLength post), time := s.time + planLength post } := by
  induction post with
  | nil => intro pre s _ _; simp [quietRun, planEffect]
  | cons sl post ih =>
    intro pre s hk hb
    simp only [planLength_append, planLength_cons] at hb
    rw [planLength_cons, quietRun_add, quietRun_slot pre sl post s hk (by omega)]
    have := ih (pre ++ [sl])
      { slotEffect (fun o => (f o).dev) (planLength pre) sl s with
        k := s.k + BitVec.ofNat 13 sl.length, time := s.time + sl.length }
      (by simp only [planLength_append, planLength_cons, planLength_nil]
          rw [toNat_add_ofNat (by omega), hk]; omega)
      (by simp only [planLength_append, planLength_cons, planLength_nil]; omega)
    simp only [List.append_assoc, List.cons_append, List.nil_append] at this
    rw [this]
    simp only [planEffect, planLength_append, planLength_cons, planLength_nil, Nat.add_zero, ofNat_add_ofNat,
      Nat.add_assoc, planEffect_clock]

/-- A command run without failure from its first tick to its last: the effect of its plan, then
completion (40_bus_bit.md R113). -/
theorem runTicks_command {i : Instr} {p : List Slot} {s : State} (ins : List TickInput)
    (h : InFlight i p s) (hk : s.k = 0) (hl : ins.length = planLength p) (h0 : ins ≠ [])
    (hc : Clean p ins) :
    runTicks ins s = .next
      { planEffect (devAt ins) 0 p s with time := s.time + planLength p }.complete := by
  have hT : planLength p ≤ 6328 := by rw [← h.plan]; exact planLength_plan_le i s.buf
  have k0 : s.k.toNat = 0 := by rw [hk]; rfl
  let f : Nat → TickInput := fun o => ins[o]?.getD ⟨false, false, 0⟩
  have hd : (fun o => (f o).dev) = devAt ins := by
    funext o
    simp only [f, devAt]
    cases ins[o]? <;> rfl
  rw [runTicks_to_end (f := f) hT ins s h h0 (by omega)
    (by intro o x hx; simp [f, k0, hx]) (by intro o x hx; rw [k0, Nat.zero_add]; exact hc o x hx)]
  have := quietRun_plan (f := f) p [] s (by simpa using k0) (by simp; omega)
  simp only [List.nil_append, planLength_nil, hd] at this
  rw [hl, this]
  rfl

/-- The issue of a command that has ticks, and its run without failure. -/
theorem exec_run {i : Instr} {s : State} {n : Nat} (ins : List TickInput) (hw : i.wellFormed = true)
    (hd : decode (encode i) = some i) (hs : s.busy = false) (hn : planLength (plan i s.buf) = n)
    (h0 : n ≠ 0) (hl : ins.length = n) (hc : Clean (plan i s.buf) ins) :
    ∃ t, exec i s = .next t ∧ t = s.accept (encode i) n ∧
      runTicks ins t = .next
        { planEffect (devAt ins) 0 (plan i s.buf) t with time := s.time + n }.complete := by
  subst hn
  refine ⟨_, by rw [exec_eq_issue, State.issue_idle hs hw], rfl, ?_⟩
  have hf : InFlight i (plan i s.buf) (s.accept (encode i) (planLength (plan i s.buf))) :=
    ⟨by simp [h0], by simpa using hd, by simp⟩
  refine runTicks_command ins hf (by simp) hl ?_ hc
  rintro rfl
  exact h0 hl.symm

/-- The shape of the state a command ends in: what its samples wrote, over `afterCommand`. -/
theorem complete_accepted (s : State) (v : Word) (n : Nat) (pres rbit : Bool) (sr : Byte) (m : Buffer) :
    State.complete { s.accept v n with
      drv := false, pres := pres, rbit := rbit, sr := sr, buf := m, time := s.time + n } =
    { s.afterCommand v n with
      pres := pres, rbit := rbit, sr := sr, buf := m,
      temp := if opField v = 9 then decodedWord m else s.temp } := rfl

/-! ## What the controller drives -/

theorem State.performEvent_drv (s : State) (dev : Bool) (e : LineEvent) :
    (s.performEvent dev e).drv = LineEvent.drive s.drv (some e) := by
  cases e with
  | L => rfl
  | H => rfl
  | S d =>
    obtain ⟨a, b, c, m, h⟩ := s.sampled_frame d (lineLevel s.drv dev)
    rw [State.performEvent_S, h]
    rfl

theorem quietTick_drv (p : List Slot) (x : TickInput) (s : State) :
    (quietTick p x s).drv = LineEvent.drive s.drv (eventAt p s.k.toNat) := by
  unfold quietTick State.afterEvent
  cases eventAt p s.k.toNat with
  | none => rfl
  | some e => exact s.performEvent_drv x.dev e

/-- A run without failure drives, tick by tick, what its plan has at the offsets it passes, if the driver was as
the plan has it one tick before; before the first tick it may be anything (40_bus_bit.md R110, R116 to R119). -/
theorem drvTrace_inFlight {i : Instr} {p : List Slot} (hT : planLength p ≤ 6328) :
    ∀ (ins : List TickInput) (s : State), InFlight i p s → s.k.toNat + ins.length ≤ planLength p →
      (0 < s.k.toNat → s.drv = lowAt p (s.k.toNat - 1)) →
      (∀ o x, ins[o]? = some x → eventAt p (s.k.toNat + o) ≠ none → x.lineErr = false) →
      drvTrace ins s = (List.range ins.length).map fun o => lowAt p (s.k.toNat + o) := by
  intro ins
  induction ins with
  | nil => intro s _ _ _ _; rfl
  | cons x ins ih =>
    intro s h hk hd hc
    simp only [List.length_cons] at hk
    have hk1 : (s.k + 1).toNat = s.k.toNat + 1 := toNat_succ (by omega)
    have hlow : (quietTick p x s).drv = lowAt p s.k.toNat := by
      rw [quietTick_drv, lowAt_event p (o := s.k.toNat) (by omega)]
      by_cases h0 : 0 < s.k.toNat
      · rw [hd h0, decide_eq_true h0, Bool.true_and]
      · rw [show s.k.toNat = 0 by omega, eventAt_zero (by omega)]
        rfl
    by_cases hl : s.k.toNat + 1 = planLength p
    · obtain rfl : ins = [] := List.length_eq_zero_iff.mp (by omega)
      rw [drvTrace, tick_last h hl (hc 0 x rfl)]
      show [(quietTick p x s).drv] = _
      rw [hlow]
      rfl
    · rw [drvTrace, tick_inside h (by omega) (hc 0 x rfl)]
      show (quietTick p x s).drv :: drvTrace ins (quietTick p x s) = _
      rw [hlow, ih _ (h.quietTick x) (by rw [quietTick_k, hk1]; omega)
        (by intro _; rw [hlow, quietTick_k, hk1, Nat.add_sub_cancel])
        (by intro o y hy
            rw [quietTick_k, hk1, show s.k.toNat + 1 + o = s.k.toNat + (o + 1) by omega]
            exact hc (o + 1) y (by simpa using hy)),
        List.length_cons, List.range_succ_eq_map, List.map_cons, List.map_map, quietTick_k, hk1]
      congr 1
      apply List.map_congr_left
      intro o _
      exact congrArg (lowAt p) (by simp only [Nat.succ_eq_add_one]; omega)

/-- What an accepted command drives, whatever the line driver was before it. -/
theorem drvTrace_accepted {i : Instr} {s : State} {n : Nat} (ins : List TickInput)
    (hd : decode (encode i) = some i) (hn : planLength (plan i s.buf) = n) (h0 : n ≠ 0) (hl : ins.length = n)
    (hc : Clean (plan i s.buf) ins) :
    drvTrace ins (s.accept (encode i) n) = (List.range n).map (lowAt (plan i s.buf)) := by
  subst hn
  have hf : InFlight i (plan i s.buf) (s.accept (encode i) (planLength (plan i s.buf))) :=
    ⟨by simp [h0], by simpa using hd, by simp⟩
  have hk : (s.accept (encode i) (planLength (plan i s.buf))).k.toNat = 0 := by simp
  rw [drvTrace_inFlight (planLength_plan_le i s.buf) ins _ hf (by omega) (by simp)
    (by intro o x hx; rw [hk, Nat.zero_add]; exact hc o x hx), hl]
  simp

/-! ## Whole bytes -/

theorem planEffect_writeByteSlots (dev : Nat → Bool) (base : Nat) (d : Byte) (s : State) :
    planEffect dev base (writeByteSlots d) s = { s with drv := false } := by
  simp only [writeByteSlots_eq, planEffect, slotEffect]

/-- A plan of written slots only releases the line. -/
theorem planEffect_writes (dev : Nat → Bool) {p : List Slot} (h : ∀ sl ∈ p, ∃ b, sl = .w b) (hp : p ≠ [])
    (base : Nat) (s : State) : planEffect dev base p s = { s with drv := false } := by
  induction p generalizing base s with
  | nil => exact absurd rfl hp
  | cons sl p ih =>
    obtain ⟨b, rfl⟩ := h sl (by simp)
    by_cases hnil : p = []
    · subst hnil
      rfl
    · simp only [planEffect, slotEffect]
      rw [ih (fun sl hs => h sl (by simp [hs])) hnil]

/-- Eight bits written by index make the byte, whatever stood there (41_bus_byte.md R152). -/
theorem setBit_eight (d : Byte) (b0 b1 b2 b3 b4 b5 b6 b7 : Bool) :
    setBit (setBit (setBit (setBit (setBit (setBit (setBit (setBit d 0 b0) 1 b1) 2 b2) 3 b3) 4 b4) 5 b5)
      6 b6) 7 b7 =
    BitVec.ofBool b7 ++ BitVec.ofBool b6 ++ BitVec.ofBool b5 ++ BitVec.ofBool b4 ++ BitVec.ofBool b3
      ++ BitVec.ofBool b2 ++ BitVec.ofBool b1 ++ BitVec.ofBool b0 := by
  apply byte_ext
  intro i
  simp only [bitOf_setBit]
  generalize hw : BitVec.ofBool b7 ++ BitVec.ofBool b6 ++ BitVec.ofBool b5 ++ BitVec.ofBool b4
    ++ BitVec.ofBool b3 ++ BitVec.ofBool b2 ++ BitVec.ofBool b1 ++ BitVec.ofBool b0 = w
  have : bitOf w 0 = b0 ∧ bitOf w 1 = b1 ∧ bitOf w 2 = b2 ∧ bitOf w 3 = b3 ∧ bitOf w 4 = b4 ∧
      bitOf w 5 = b5 ∧ bitOf w 6 = b6 ∧ bitOf w 7 = b7 := by
    subst hw
    revert b0 b1 b2 b3 b4 b5 b6 b7
    decide
  obtain ⟨h0, h1, h2, h3, h4, h5, h6, h7⟩ := this
  clear hw
  fin_cases i <;> simp [*]

/-- A read byte: `RBIT` its last bit, `SR` and the buffer byte the byte of its samples. -/
theorem planEffect_readByteSlots (ins : List TickInput) (base : Nat) (j : Option BufIndex) (s : State) :
    planEffect (devAt ins) base (readByteSlots j) s =
      { s with
        drv := false, rbit := bitAt ins (base + 448), sr := byteAt ins base,
        buf := match j with
          | some j => bufSet s.buf j (byteAt ins base)
          | none => s.buf } := by
  have hd : ∀ b, decide (lineLevel false b = .high) = !b := by decide
  simp only [readByteSlots_eq, planEffect, slotEffect, Slot.length_r, byteAt, bitAt]
  cases j with
  | none => simp only [State.sampled_bit_some_none, hd, setBit_eight, Nat.add_assoc, Nat.reduceAdd]
  | some j =>
    simp only [State.sampled_bit_some_some, hd, setBit_eight, Nat.add_assoc, Nat.reduceAdd]
    simp

/-- Read bytes one after the other, into different buffer bytes. -/
theorem planEffect_readBytes (ins : List TickInput) : ∀ (l : List BufIndex) (base : Nat) (s : State),
    l ≠ [] → l.Nodup → ∃ m,
      planEffect (devAt ins) base (l.flatMap fun j => readByteSlots (some j)) s =
        { s with
          drv := false, rbit := bitAt ins (base + 488 * (l.length - 1) + 448),
          sr := byteAt ins (base + 488 * (l.length - 1)), buf := m } ∧
      (∀ j, j ∉ l → bufGet m j = bufGet s.buf j) ∧
      ∀ n (h : n < l.length), bufGet m l[n] = byteAt ins (base + 488 * n) := by
  intro l
  induction l with
  | nil => intro _ _ h; exact absurd rfl h
  | cons a l ih =>
    intro base s _ hn
    obtain ⟨ha, hl⟩ := List.nodup_cons.mp hn
    rw [List.flatMap_cons, planEffect_append, planEffect_readByteSlots, planLength_readByteSlots]
    by_cases hnil : l = []
    · subst hnil
      refine ⟨bufSet s.buf a (byteAt ins base), by simp [planEffect], ?_, ?_⟩
      · intro j hj
        exact bufGet_bufSet_of_ne _ _ fun e => hj (by simp [e])
      · intro n h
        have : n = 0 := by simpa using h
        subst this
        simp
    · obtain ⟨m, h1, h2, h3⟩ := ih (base + 488)
        { s with
          drv := false, rbit := bitAt ins (base + 448), sr := byteAt ins base,
          buf := bufSet s.buf a (byteAt ins base) } hnil hl
      have hlen : l.length ≠ 0 := by simpa using hnil
      have hb : base + 488 + 488 * (l.length - 1) = base + 488 * ((a :: l).length - 1) := by
        rw [List.length_cons]
        omega
      refine ⟨m, ?_, ?_, ?_⟩
      · rw [h1, hb]
      · intro j hj
        rw [h2 j fun h => hj (by simp [h])]
        exact bufGet_bufSet_of_ne _ _ fun e => hj (by simp [e])
      · intro n h
        cases n with
        | zero => simp [h2 a ha]
        | succ n =>
          simp only [List.getElem_cons_succ]
          rw [h3 n (by simpa using h)]
          congr 1
          omega

end Sys2Proof.Machine
end

