-- ==== Sys2Proof/Laws/Step.lean ====
section
/-! SUPPORT. What one step can do, said once: every step that answers a next state is one of the cases of
`StepCase`. -/

namespace Sys2Proof

/-- The decoder answers well-formed commands only. -/
theorem decode_wellFormed {v : Word} {i : Instr} (h : decode v = some i) : i.wellFormed = true := by
  unfold decode at h
  split at h
  · rename_i j hj
    injection h with h
    subst h
    unfold decodeWord at hj
    split at hj
    · split at hj
      all_goals try simp only [decodeC0, decodeCB, decodeCN] at hj
      all_goals repeat' split at hj
      all_goals first
        | (injection hj with hj; subst hj; first | rfl | assumption)
        | cases hj
    · cases hj
  · cases h

namespace Machine

/-- The cases of a step: `s` is the state with the action taken off the schedule, `t` the next state. -/
inductive StepCase (s : State) : Action → State → Prop where
  | idleTick (x : TickInput) : s.busy = false → StepCase s (.tick x) s.tickTime
  | busyTick (x : TickInput) (i : Instr) : s.busy = true → decode s.cmd = some i →
      StepCase s (.tick x) (s.tickPlan (plan i s.buf) x).tickTime
  | accepted (v : Word) (i : Instr) : s.busy = false → decode v = some i →
      StepCase s (.write 0x00 v) (s.accept (encode i) (planLength (plan i s.buf)))
  | rejectedCmd (v : Word) : s.busy = true → StepCase s (.write 0x00 v) s.rejectBusy
  | illegalCmd (v : Word) : s.busy = false → decode v = none → StepCase s (.write 0x00 v) s.refuseIllegal
  | bufferWrite (a : Addr) (j : BufIndex) (v : Word) : s.busy = false → portReg a = .buf j →
      StepCase s (.write a v) { s with buf := bufSet s.buf j (v.setWidth 8) }
  | rejectedBuf (a : Addr) (j : BufIndex) (v : Word) : s.busy = true → portReg a = .buf j →
      StepCase s (.write a v) s.rejectBusy
  | ignoredWrite (a : Addr) (v : Word) : StepCase s (.write a v) s
  | read (a : Addr) : StepCase s (.read a) { s with hostReads := regRead a s :: s.hostReads }
  | reset : StepCase s .reset s.hardwareReset
  | writeInReset (a : Addr) (v : Word) : StepCase s (.writeInReset a v) s.hardwareReset

theorem portReg_cmd {a : Addr} : portReg a = .cmd ↔ a = 0x00 := by
  revert a
  decide

theorem portReg_buf {a : Addr} {j : BufIndex} : portReg a = .buf j ↔ a.toNat = 0x10 + j.val := by
  revert a j
  decide

/-- Every performed action that answers a next state is one of the cases. -/
theorem perform_cases {a : Action} {s t : State} (h : perform a s = .next t) : StepCase s a t := by
  cases a with
  | tick x =>
    cases hb : s.busy with
    | false =>
      rw [perform, tick_idle hb] at h
      cases h
      exact .idleTick x hb
    | true =>
      cases hd : decode s.cmd with
      | none => simp [perform, tick, hb, hd] at h
      | some i =>
        rw [perform, tick_busy hb hd] at h
        cases h
        exact .busyTick x i hb hd
  | write a v =>
    rw [perform, regWrite] at h
    split at h
    · rename_i hp
      rw [portReg_cmd] at hp
      subst hp
      unfold writeCmd at h
      split at h
      · rename_i i hd
        rw [exec_eq_issue] at h
        cases hb : s.busy with
        | true =>
          rw [State.issue_busy hb] at h
          cases h
          exact .rejectedCmd v hb
        | false =>
          rw [State.issue_idle hb (decode_wellFormed hd)] at h
          cases h
          exact .accepted v i hb hd
      · rename_i hd
        cases hb : s.busy with
        | true =>
          simp only [hb, if_true] at h
          cases h
          exact .rejectedCmd v hb
        | false =>
          simp only [hb, Bool.false_eq_true, if_false] at h
          cases h
          exact .illegalCmd v hb hd
    case h_6 j hp =>
      unfold writeBuf at h
      cases hb : s.busy with
      | true =>
        simp only [hb, if_true] at h
        cases h
        exact .rejectedBuf a j v hb hp
      | false =>
        simp only [hb, Bool.false_eq_true, if_false] at h
        injection h with h
        subst h
        rw [← hb]
        exact .bufferWrite a j v hb hp
    all_goals
      cases h
      exact .ignoredWrite a v
  | read a => cases h; exact .read a
  | reset => cases h; exact .reset
  | writeInReset a v => cases h; exact .writeInReset a v

/-- Every step that answers a next state is one of the cases. -/
theorem step_cases {s t : State} (h : step s = .next t) :
    StepCase (nextAction s).2 (nextAction s).1 t := perform_cases h

/-- Taking the action off the schedule changes the schedule and the count of drawn inputs, nothing else. -/
theorem nextAction_frame (s : State) : ∃ pending draws,
    (nextAction s).2 = { s with pending := pending, draws := draws } := by
  unfold nextAction
  split
  · exact ⟨_, s.draws, rfl⟩
  · exact ⟨s.pending, _, rfl⟩

end Machine
end Sys2Proof
end

