-- ==== Sys2Proof/Tests/Slice0.lean ====
section
/-! SUPPORT. Tests on small states, expected results from spec/95_test_vectors.md (a vector T, V or P is named
where the result comes from one) or worked out from the rule named; and for every statement with hypotheses a
witness that meets them. -/

namespace Sys2Proof.Tests

open Sys2Proof Sys2Proof.Machine

/-! ## Helpers -/

/-- A tick with a released line and no failure. -/
def quiet : TickInput := { dev := false, lineErr := false, lineErrCode := 0x00 }

/-- A tick in which a device pulls the line low. -/
def pulled : TickInput := { dev := true, lineErr := false, lineErrCode := 0x00 }

/-- A tick in which a device pulls low and a line operation would fail. -/
def failing (code : Byte) : TickInput := { dev := true, lineErr := true, lineErrCode := code }

/-- The command of a word in flight at an offset, everything else as after reset. -/
def inFlight (v : Word) (k : Nat) : State :=
  { State.reset with cmd := v, busy := true, k := BitVec.ofNat 13 k }

/-- The state after reset with the environment's actions scheduled. -/
def scheduled (l : List Action) : State := { State.reset with pending := l }

/-- A fact about the state a step ends in. -/
def meets (o : Outcome) (p : State → Bool) : Bool :=
  match o with
  | .next s => p s
  | .fault _ => false
  | .refused _ => false

theorem exists_of_meets {o : Outcome} {p : State → Bool} (h : meets o p = true) :
    ∃ t, o = .next t ∧ p t = true := by
  cases o with
  | next t => exact ⟨t, rfl, h⟩
  | fault _ => cases h
  | refused _ => cases h

/-- Inputs that never fail meet `Clean` for every plan. -/
theorem clean_quiet (p : List Slot) (n : Nat) : Clean p (List.replicate n quiet) := by
  intro o x hx _
  rw [List.mem_replicate.mp (List.mem_of_getElem? hx) |>.2]
  rfl

/-! ## Well-formedness: every check refuses -/

theorem test_wellFormed_count_nine : (Instr.writeBytes 9).wellFormed = true ∧
    (Instr.readBytes 9).wellFormed = true := by decide
theorem test_wellFormed_refuses_writeBytes_ten : (Instr.writeBytes 10).wellFormed = false := by decide
theorem test_wellFormed_refuses_readBytes_fifteen : (Instr.readBytes 15).wellFormed = false := by decide
/-- An ill-formed term is the issue of an illegal word (T29c, log entry 9). -/
theorem test_illFormed_sets_ill : meets (exec (.writeBytes 10) State.reset)
    (fun t => statusWord t == 0x0040 && t.cmd == 0x0000) = true := by decide

/-! ## Decoding: words bit by bit from 30_encoding.md R90 and R92 -/

theorem test_decode_reset : decode 0b0000_0001_00000000 = some .reset := by decide
theorem test_decode_writeBit : decode 0b0000_0010_00000001 = some (.writeBit true) := by decide
theorem test_decode_readBit : decode 0b0000_0011_00000000 = some .readBit := by decide
theorem test_decode_writeByte : decode 0b0000_0100_10100101 = some (.writeByte 0xA5) := by decide
theorem test_decode_readByte : decode 0b0000_0101_00000000 = some .readByte := by decide
theorem test_decode_writeBytes : decode 0b0000_0110_0000_0010 = some (.writeBytes 2) := by decide
theorem test_decode_readBytes : decode 0b0000_0111_0000_1001 = some (.readBytes 9) := by decide
theorem test_decode_convert : decode 0b0000_1000_00000000 = some .convert := by decide
theorem test_decode_readTemp : decode 0b0000_1001_00000000 = some .readTemp := by decide

/-- T60 to T64, T29c: the illegal words, each under its name. -/
theorem test_decode_rejects :
    decodeWord 0x0000 = .rejected .reservedOp ∧ decodeWord 0x0101 = .rejected .unusedArgBit ∧
    decodeWord 0x1100 = .rejected .reservedZ ∧ decodeWord 0x0202 = .rejected .unusedArgBit ∧
    decodeWord 0x0A00 = .rejected .reservedOp ∧ decodeWord 0x0F00 = .rejected .reservedOp ∧
    decodeWord 0xFFFF = .rejected .reservedZ ∧ decodeWord 0x060A = .rejected .countAboveNine ∧
    decodeWord 0x070A = .rejected .countAboveNine ∧ decodeWord 0x0610 = .rejected .unusedArgBit := by decide

/-- R102: the mnemonic and its operand are the word. -/
theorem test_assemble : assemble "WRITE_BYTE" (some 0xCC) = some 0x04CC ∧
    assemble "READ_BYTES" (some 10) = none ∧ assemble "READ_TEMP" none = some 0x0900 := by decide

/-- A row's word, numbered as the opcode table numbers it, is what the decoder reads and the next command a
step runs. -/
theorem test_fetched_word_runs : decodeTableWord 16 0x0201 = some (.writeBit true) ∧
    meets (step (State.reset.withFetchWord 16 0x0201))
      (fun t => t.cmd == 0x0201 && t.busy && t.pending.isEmpty) = true := by decide

/-- R7: "all durations are 1 or more". -/
theorem test_durations_positive : [Config.tRstL, Config.tPds, Config.tRstRec, Config.tW1L, Config.tW1H,
    Config.tW0L, Config.tW0H, Config.tRdL, Config.tRdS, Config.tRdRec].all (0 < ·) = true := by decide

/-! ## Commands, one step each -/

/-- T2: the sample at offset 545 sees the device. -/
theorem test_reset_sees_presence :
    meets (tick pulled (inFlight 0x0100 545)) (fun t => t.pres && t.k == 546) = true := by decide
/-- T54: a failing sample writes no flag. -/
theorem test_reset_failing_sample : meets (tick (failing 0x22) (inFlight 0x0100 545))
    (fun t => statusWord t == 0x0004 && t.errcode == 0x22) = true := by decide

/-- T5: a one is released after one tick. -/
theorem test_writeBit_one_released :
    meets (tick pulled { inFlight 0x0201 1 with drv := true }) (fun t => !t.drv) = true := by decide
/-- T6: a zero is released in its last tick, which completes. -/
theorem test_writeBit_zero_completes : meets (tick pulled { inFlight 0x0200 60 with drv := true })
    (fun t => !t.drv && statusWord t == 0x0002 && t.k == 0) = true := by decide

/-- T11: RBIT 1 to 0, PRES and DATA untouched. -/
theorem test_readBit_samples_low :
    meets (tick pulled { inFlight 0x0300 21 with rbit := true, pres := true, sr := 0xA5 })
      (fun t => !t.rbit && t.pres && t.sr == 0xA5) = true := by decide
/-- T10: `dev` at offset 22 is not looked at. -/
theorem test_readBit_ignores_other_ticks :
    meets (tick pulled { inFlight 0x0300 22 with rbit := true }) (fun t => t.rbit) = true := by decide

/-- T17: bit 1 of 0xA5 is 0, so offset 62 is still low. -/
theorem test_writeByte_second_bit_low :
    meets (tick quiet { inFlight 0x04A5 62 with drv := true }) (fun t => t.drv) = true := by decide
/-- T20: bit 2 of 0xCC is 1, so offset 123 is released. -/
theorem test_writeByte_third_bit_released :
    meets (tick quiet { inFlight 0x04CC 123 with drv := true }) (fun t => !t.drv) = true := by decide

/-- T50: the abort at the sample of bit 3 leaves bits 0 to 2. -/
theorem test_readByte_abort : meets (tick (failing 0x5A) { inFlight 0x0500 204 with rbit := true, sr := 0x07 })
    (fun t => statusWord t == 0x0014 && t.sr == 0x07 && t.errcode == 0x5A && !t.drv) = true := by decide
/-- T25: the last bit goes to bit 7; BUF is not written. -/
theorem test_readByte_last_bit : meets (tick quiet (inFlight 0x0500 448))
    (fun t => t.sr == 0x80 && t.rbit && t.buf == State.reset.buf) = true := by decide

/-- T27: the second byte sent is BUF[1] = 0x44, whose bit 2 is 1: low in offset 610, released in 611. -/
theorem test_writeBytes_second_byte :
    meets (tick quiet { inFlight 0x0602 611 with drv := true, buf := bufSet (bufSet State.reset.buf 0 0xCC) 1 0x44 })
      (fun t => !t.drv) = true := by decide
/-- T28: count 0 completes in the write. -/
theorem test_writeBytes_zero :
    meets (exec (.writeBytes 0) State.reset) (fun t => statusWord t == 0x0002 && t.cmd == 0x0600) = true := by
  decide

/-- T29: byte 1 is stored at the sample of its bit 7; 0x34 has a 0 there. -/
theorem test_readBytes_stores : meets (tick pulled { inFlight 0x0703 936 with sr := 0xB4 })
    (fun t => bufGet t.buf 1 == 0x34 && bufGet t.buf 0 == 0x00 && bufGet t.buf 2 == 0x00) = true := by decide
/-- T28b: count 0 completes in the write. -/
theorem test_readBytes_zero :
    meets (exec (.readBytes 0) State.reset) (fun t => statusWord t == 0x0002 && t.cmd == 0x0700) = true := by
  decide

/-- T30: the last event, the release at offset 1935, completes the command. -/
theorem test_convert_completes : meets (tick quiet { inFlight 0x0800 1935 with drv := true })
    (fun t => statusWord t == 0x0002 && !t.drv) = true := by decide
/-- T57: a failure there aborts it. -/
theorem test_convert_fails_in_last_tick : meets (tick (failing 0x01) { inFlight 0x0800 1935 with drv := true })
    (fun t => statusWord t == 0x0004 && !t.drv && t.errcode == 0x01) = true := by decide

/-- T43: completion joins BUF[1] and BUF[0]. -/
theorem test_readTemp_completes :
    meets (tick quiet { inFlight 0x0900 6327 with buf := bufSet (bufSet State.reset.buf 0 0x5E) 1 0xFF })
      (fun t => t.temp == 0xFF5E && t.done && !t.busy) = true := by decide
/-- T56: the abort in byte 1 keeps TEMP and byte 0. -/
theorem test_readTemp_abort : meets
    (tick (failing 0x42)
      { inFlight 0x0900 2628 with pres := true, sr := 0x91, temp := 0x0550, buf := bufSet State.reset.buf 0 0x91 })
    (fun t => statusWord t == 0x000C && t.temp == 0x0550 && t.sr == 0x91 && bufGet t.buf 1 == 0x00) = true := by
  decide

/-! ## The port and hardware reset -/

/-- T66, T68: the busy test comes first. -/
theorem test_busy_rejects_cmd : meets (regWrite 0x00 0xFFFF (inFlight 0x0100 10))
    (fun t => statusWord t == 0x0021 && t.cmd == 0x0100 && t.k == 10) = true := by decide
/-- T65: the next accepted command clears ILL. -/
theorem test_acceptance_clears_ill : meets (regWrite 0x00 0x0201 { State.reset with ill := true })
    (fun t => statusWord t == 0x0001 && t.cmd == 0x0201) = true := by decide
/-- T74: a buffer register takes the low byte. -/
theorem test_buffer_low_byte :
    meets (regWrite 0x12 0xABCD State.reset) (fun t => regRead 0x12 t == 0x00CD) = true := by decide
/-- T81: hardware reset in mid-command releases the line and sets no flag. -/
theorem test_hardware_reset : meets (step { inFlight 0x0100 100 with drv := true, pending := [.reset] })
    (fun t => !t.drv && statusWord t == 0x0000 && t.cmd == 0x0000) = true := by decide
/-- The one stop: `BUSY` with a word in `CMD` that is no command (log entry 6). -/
theorem test_illegal_in_flight_stops : tick quiet (inFlight 0x0000 0) = .fault .illegalInFlight := rfl

/-! ## Witnesses: each statement with hypotheses, and states and operands that meet them together -/

theorem witness_HardwareResetFromAnyState :
    { inFlight 0x0100 100 with pending := [.reset, .read 0x01] }.pending = .reset :: [.read 0x01] ∧
    (scheduled [.writeInReset 0x00 0x0100]).pending = .writeInReset 0x00 0x0100 :: [] := ⟨rfl, rfl⟩

theorem witness_DecodeOfEncodeIsTheCommand :
    (Instr.writeBytes 9).wellFormed = true ∧ (Instr.writeByte 0xFF).wellFormed = true := by decide

theorem witness_EncodeOfDecodeIsTheWord : decode 0x0709 = some (.readBytes 9) := by decide

theorem witness_StepRunsTheDecodedCommand :
    (scheduled [.write 0x00 0x04FF]).pending = .write 0x00 0x04FF :: [] ∧
    decode 0x04FF = some (.writeByte 0xFF) := by decide

theorem witness_StepPerformsTheNextAction :
    (scheduled [.tick pulled]).pending = .tick pulled :: [] ∧
    (scheduled [.write 0x1F 0x0001]).pending = .write 0x1F 0x0001 :: [] ∧
    (scheduled [.read 0x1F]).pending = .read 0x1F :: [] ∧ State.reset.pending = [] := by decide

theorem witness_CommandWriteHasThreeOutcomes :
    (inFlight 0x0300 0).busy = true ∧ State.reset.busy = false ∧ legal 0x060A = false ∧ legal 0x0609 = true ∧
    planLength (plan (.writeBytes 9) State.reset.buf) ≠ 0 ∧ decode 0x0609 = some (.writeBytes 9) ∧
    legal 0x0600 = true ∧ decode 0x0600 = some (.writeBytes 0) ∧
    planLength (plan (.writeBytes 0) State.reset.buf) = 0 := by decide

/-- The boundary operands of every command with ticks. -/
theorem witness_IdleBlockAcceptsEveryCommand : State.reset.busy = false ∧
    [Instr.reset, .writeBit false, .writeBit true, .readBit, .writeByte 0x00, .writeByte 0xFF, .readByte,
      .writeBytes 1, .writeBytes 9, .readBytes 1, .readBytes 9, .convert, .readTemp].all
      (fun i => i.wellFormed && i != .writeBytes 0 && i != .readBytes 0) = true := by decide

theorem witness_ZeroCountCompletesInTheWrite : { State.reset with rej := true, err := true }.busy = false := rfl

theorem witness_IllegalWordOnlySetsIll :
    (scheduled [.write 0x00 0x0000]).pending = .write 0x00 0x0000 :: [] ∧
    (scheduled [.write 0x00 0x0000]).busy = false ∧ legal 0x0000 = false := by decide

theorem witness_WriteWhileBusyOnlySetsRej : (inFlight 0x0100 10).busy = true ∧
    [(0x00 : Addr), 0x10, 0x18].all (fun a => a = 0x00 ∨ (0x10 ≤ a.toNat ∧ a.toNat ≤ 0x18)) = true := by decide

theorem witness_CommandLengths : [(0 : BitVec 4), 1, 9].all (fun n => n.toNat ≤ 9) = true := by decide

/-- The first and last address of each range. -/
theorem witness_ReadOnlyAndReservedAddresses :
    [(0x01 : Addr), 0x04].all (fun a => 0x01 ≤ a.toNat ∧ a.toNat ≤ 0x04) = true ∧
    [(0x05 : Addr), 0x0F, 0x19, 0x1F].all
      (fun a => (0x05 ≤ a.toNat ∧ a.toNat ≤ 0x0F) ∨ (0x19 ≤ a.toNat ∧ a.toNat ≤ 0x1F)) = true := by decide

theorem witness_BufferWriteTakesTheLowByte :
    (0x10 : Addr).toNat = 0x10 + (0 : BufIndex).val ∧ (0x18 : Addr).toNat = 0x10 + (8 : BufIndex).val ∧
    (inFlight 0x0602 0).busy = true ∧ State.reset.busy = false ∧ (1 : BufIndex) ≠ 0 := by decide

theorem witness_AddressMapOfReads : (0x10 : Addr).toNat = 0x10 + (0 : BufIndex).val ∧
    (0x18 : Addr).toNat = 0x10 + (8 : BufIndex).val := by decide

theorem witness_HostReadChangesNothing :
    (scheduled [.read 0x00]).pending = .read 0x00 :: [] ∧
    { inFlight 0x0500 300 with pending := [.read 0x1F] }.pending = .read 0x1F :: [] := by decide

theorem witness_HostCannotDisturbACommandInFlight :
    { inFlight 0x0500 300 with pending := [.write 0x00 0xFFFF] }.busy = true ∧
    { inFlight 0x0500 300 with pending := [.write 0x00 0xFFFF] }.pending = .write 0x00 0xFFFF :: [] ∧
    { inFlight 0x0500 300 with pending := [.read 0x1F] }.pending = .read 0x1F :: [] := by decide

theorem witness_IdleTickChangesNothing : State.reset.busy = false := rfl

/-- The first event of a command and an event in the last tick of one. -/
theorem witness_LineFailureAborts :
    (inFlight 0x0100 0).busy = true ∧ decode (inFlight 0x0100 0).cmd = some .reset ∧
    eventAt (plan .reset (inFlight 0x0100 0).buf) (inFlight 0x0100 0).k.toNat ≠ none ∧
    (inFlight 0x0800 1935).busy = true ∧ decode (inFlight 0x0800 1935).cmd = some .convert ∧
    eventAt (plan .convert (inFlight 0x0800 1935).buf) (inFlight 0x0800 1935).k.toNat ≠ none ∧
    (failing 0x01).lineErr = true := by decide

theorem witness_SampleWritesByDestination : (6 : BitIndex) ≠ 7 ∧
    ((7 : BitIndex) = 7 ∧ some (8 : BufIndex) = some 8) ∧ ¬ ((6 : BitIndex) = 7 ∧ some (8 : BufIndex) = some 8) := by
  decide

theorem witness_InputsAreObservedOnlyAtEvents :
    decode (inFlight 0x0300 20).cmd = some .readBit ∧
    eventAt (plan .readBit (inFlight 0x0300 20).buf) (inFlight 0x0300 20).k.toNat = none ∧
    decode (inFlight 0x0300 1).cmd = some .readBit ∧
    (∀ d, eventAt (plan .readBit (inFlight 0x0300 1).buf) (inFlight 0x0300 1).k.toNat ≠ some (.S d)) ∧
    SameFaults quiet pulled := by
  refine ⟨by decide, by decide, by decide, fun d => ?_, rfl, rfl⟩
  rw [show eventAt (plan .readBit (inFlight 0x0300 1).buf) (inFlight 0x0300 1).k.toNat = some .H by decide]
  simp

/-- A read slot after its release meets the invariant. -/
theorem inv_inFlight_readBit (k : Nat) (hk : k < 61) (h1 : 1 ≤ k - 1) :
    (inFlight 0x0300 k).Inv where
  busy_excludes_result := fun _ => ⟨rfl, rfl⟩
  one_result := by rintro ⟨h, _⟩; cases h
  idle_released := fun h => by cases h
  in_flight := fun _ => ⟨.readBit, test_decode_readBit, by
    simp only [inFlight, plan, planReadBit, planLength_cons, planLength_nil, Slot.length_r, BitVec.toNat_ofNat]
    omega⟩
  drive := fun _ i h => by
    have hi : i = .readBit := Option.some.inj (h.symm.trans test_decode_readBit)
    subst hi
    have hm : k % 8192 = k := Nat.mod_eq_of_lt (by omega)
    simp [inFlight, plan, planReadBit, lowAt, State.reset, hm]
    omega
  cmd_legal := .inr (show legal 0x0300 = true by decide)
  fresh := fun h => absurd h (show ¬ (0x0300 : Word) = 0 by decide)
  ended := fun _ h => by cases h

/-- A tick inside a command, and the tick that completes it. -/
theorem witness_PositionAdvancesByOne :
    ((inFlight 0x0300 21).Inv ∧ (inFlight 0x0300 21).busy = true ∧
      ∃ t, tick quiet (inFlight 0x0300 21) = .next t ∧ t.busy = true) ∧
    ((inFlight 0x0300 60).Inv ∧ (inFlight 0x0300 60).busy = true ∧
      ∃ t, tick quiet (inFlight 0x0300 60) = .next t ∧ t.busy = false) := by
  have h1 : meets (tick quiet (inFlight 0x0300 21)) (fun t => t.busy) = true := by decide
  have h2 : meets (tick quiet (inFlight 0x0300 60)) (fun t => !t.busy) = true := by decide
  obtain ⟨t, ht, hb⟩ := exists_of_meets h1
  obtain ⟨u, hu, hc⟩ := exists_of_meets h2
  exact ⟨⟨inv_inFlight_readBit 21 (by decide) (by decide), rfl, t, ht, hb⟩,
    inv_inFlight_readBit 60 (by decide) (by decide), rfl, u, hu, by simpa using hc⟩

theorem witness_ByteEventsBySlot : 0 < 61 ∧ 60 < 61 := by decide

theorem witness_EventCounts : (0 : BitVec 4).toNat ≤ 9 ∧ (9 : BitVec 4).toNat ≤ 9 := by decide

/-- The first and the last offset of each phase, for both commands; an idle block; another command. -/
theorem witness_SequencerPhasesAreRangesOfPosition :
    State.reset.busy = false ∧
    ((inFlight 0x0300 0).busy = true ∧ decode (inFlight 0x0300 0).cmd = some .readBit ∧
      Instr.readBit ≠ .convert ∧ Instr.readBit ≠ .readTemp) ∧
    ((inFlight 0x0800 0).busy = true ∧ decode (inFlight 0x0800 0).cmd = some .convert ∧
      (inFlight 0x0800 959).k.toNat < 960 ∧ 960 ≤ (inFlight 0x0800 960).k.toNat ∧
      (inFlight 0x0800 1447).k.toNat < 1448 ∧ 1448 ≤ (inFlight 0x0800 1448).k.toNat ∧
      (inFlight 0x0800 1935).k.toNat < 1936) ∧
    ((inFlight 0x0900 0).busy = true ∧ decode (inFlight 0x0900 0).cmd = some .readTemp ∧
      (inFlight 0x0900 959).k.toNat < 960 ∧ 960 ≤ (inFlight 0x0900 960).k.toNat ∧
      (inFlight 0x0900 1447).k.toNat < 1448 ∧ 1448 ≤ (inFlight 0x0900 1448).k.toNat ∧
      (inFlight 0x0900 1935).k.toNat < 1936 ∧
      (inFlight 0x0900 1936).k.toNat = 1936 + 488 * 0 + 0 ∧
      (inFlight 0x0900 6327).k.toNat = 1936 + 488 * 8 + 487 ∧ 487 < 488) := by decide

/-- V10: the phases of READ_TEMP at their first and last offsets. -/
theorem test_phases :
    [0, 959, 960, 1447, 1448, 1935].map (fun k => phase (inFlight 0x0900 k)) =
      [.resetPresence, .resetPresence, .commandSkip, .commandSkip, .commandSecond, .commandSecond] ∧
    phase (inFlight 0x0900 1936) = .data 0 ∧ phase (inFlight 0x0900 6327) = .data 8 ∧
    phase State.reset = .idle := by decide

/-! Runs: the state after reset, and as many quiet ticks as the command takes. -/

theorem witness_ResetDetectsPresence : State.reset.busy = false ∧
    (List.replicate 960 quiet).length = 960 ∧ Clean planReset (List.replicate 960 quiet) :=
  ⟨rfl, List.length_replicate, clean_quiet _ _⟩

theorem witness_WriteBitRuns : State.reset.busy = false ∧
    (List.replicate 61 quiet).length = 61 ∧ Clean (planWriteBit true) (List.replicate 61 quiet) :=
  ⟨rfl, List.length_replicate, clean_quiet _ _⟩

theorem witness_ReadBitSamplesOnce : State.reset.busy = false ∧
    (List.replicate 61 quiet).length = 61 ∧ Clean planReadBit (List.replicate 61 quiet) :=
  ⟨rfl, List.length_replicate, clean_quiet _ _⟩

theorem witness_WriteByteRuns : State.reset.busy = false ∧
    (List.replicate 488 quiet).length = 488 ∧ Clean (planWriteByte 0xFF) (List.replicate 488 quiet) ∧
    0 < 61 ∧ 60 < 61 :=
  ⟨rfl, List.length_replicate, clean_quiet _ _, by decide⟩

theorem witness_ReadByteAssemblesEightSamples : State.reset.busy = false ∧
    (List.replicate 488 quiet).length = 488 ∧ Clean planReadByte (List.replicate 488 quiet) :=
  ⟨rfl, List.length_replicate, clean_quiet _ _⟩

/-- Counts 1 and 9, and the last byte of each. -/
theorem witness_WriteBytesRuns : State.reset.busy = false ∧
    (1 ≤ (1 : BitVec 4).toNat ∧ (1 : BitVec 4).toNat ≤ 9 ∧
      (List.replicate 488 quiet).length = 488 * (1 : BitVec 4).toNat ∧
      Clean (planWriteBytes 1 State.reset.buf) (List.replicate 488 quiet) ∧
      (0 : BufIndex).val < (1 : BitVec 4).toNat) ∧
    (1 ≤ (9 : BitVec 4).toNat ∧ (9 : BitVec 4).toNat ≤ 9 ∧
      (List.replicate 4392 quiet).length = 488 * (9 : BitVec 4).toNat ∧
      Clean (planWriteBytes 9 State.reset.buf) (List.replicate 4392 quiet) ∧
      (8 : BufIndex).val < (9 : BitVec 4).toNat) ∧ 60 < 61 :=
  ⟨rfl, ⟨by decide, by decide, List.length_replicate, clean_quiet _ _, by decide⟩,
    ⟨by decide, by decide, List.length_replicate, clean_quiet _ _, by decide⟩, by decide⟩

/-- Counts 1 and 9. -/
theorem witness_ReadBytesFillTheBuffer : State.reset.busy = false ∧
    (1 ≤ (1 : BitVec 4).toNat ∧ (1 : BitVec 4).toNat ≤ 9 ∧
      (List.replicate 488 quiet).length = 488 * (1 : BitVec 4).toNat ∧
      Clean (planReadBytes 1) (List.replicate 488 quiet)) ∧
    (1 ≤ (9 : BitVec 4).toNat ∧ (9 : BitVec 4).toNat ≤ 9 ∧
      (List.replicate 4392 quiet).length = 488 * (9 : BitVec 4).toNat ∧
      Clean (planReadBytes 9) (List.replicate 4392 quiet)) :=
  ⟨rfl, ⟨by decide, by decide, List.length_replicate, clean_quiet _ _⟩,
    by decide, by decide, List.length_replicate, clean_quiet _ _⟩

theorem witness_ConvertRuns : State.reset.busy = false ∧
    (List.replicate 1936 quiet).length = 1936 ∧ Clean planConvert (List.replicate 1936 quiet) :=
  ⟨rfl, List.length_replicate, clean_quiet _ _⟩

theorem witness_ReadTempDeliversTheTemperature : State.reset.busy = false ∧
    (List.replicate 6328 quiet).length = 6328 ∧ Clean planReadTemp (List.replicate 6328 quiet) :=
  ⟨rfl, List.length_replicate, clean_quiet _ _⟩

/-- A command with ticks, one without, and a host read left in the schedule after it. -/
theorem witness_EveryCommandTakesExactlyItsLength :
    (∃ s : State, s.busy = false ∧ (Instr.readBit).wellFormed = true ∧
      (List.replicate 61 quiet).length = planLength (plan .readBit s.buf) ∧
      Clean (plan .readBit s.buf) (List.replicate 61 quiet) ∧
      s.pending = .write 0x00 (encode .readBit) ::
        ((List.replicate 61 quiet).map Action.tick ++ [.read 0x01])) ∧
    (∃ s : State, s.busy = false ∧ (Instr.readBytes 0).wellFormed = true ∧
      ([] : List TickInput).length = planLength (plan (.readBytes 0) s.buf) ∧
      Clean (plan (.readBytes 0) s.buf) [] ∧
      s.pending = .write 0x00 (encode (.readBytes 0)) :: (([] : List TickInput).map Action.tick ++ [])) :=
  ⟨⟨scheduled (.write 0x00 (encode .readBit) :: ((List.replicate 61 quiet).map Action.tick ++ [.read 0x01])),
    rfl, rfl, rfl, clean_quiet _ _, rfl⟩,
   ⟨scheduled [.write 0x00 (encode (.readBytes 0))], rfl, rfl, rfl, clean_quiet _ 0, rfl⟩⟩

/-- The first event of a command, and an event in the last tick of one. -/
theorem witness_AbortIsPreciseToTheEvent : State.reset.busy = false ∧ (failing 0x5A).lineErr = true ∧
    ((Instr.readByte).wellFormed = true ∧ Clean (plan .readByte State.reset.buf) (List.replicate 0 quiet) ∧
      eventAt (plan .readByte State.reset.buf) (List.replicate 0 quiet).length ≠ none) ∧
    ((Instr.writeBit false).wellFormed = true ∧
      Clean (plan (.writeBit false) State.reset.buf) (List.replicate 60 quiet) ∧
      eventAt (plan (.writeBit false) State.reset.buf) (List.replicate 60 quiet).length ≠ none) :=
  ⟨rfl, rfl, ⟨rfl, clean_quiet _ _, by decide⟩, rfl, clean_quiet _ _, by decide⟩

/-- Cut off before the first tick, and before the last. -/
theorem witness_PartialByteShowsTheBitsSampledSoFar : State.reset.busy = false ∧
    ((List.replicate 0 quiet).length < 488 ∧ Clean planReadByte (List.replicate 0 quiet)) ∧
    ((List.replicate 487 quiet).length < 488 ∧ Clean planReadByte (List.replicate 487 quiet)) :=
  ⟨rfl, ⟨by decide, clean_quiet _ _⟩, by rw [List.length_replicate]; decide, clean_quiet _ _⟩

/-- Cut off before the first tick, and before the last; and for the clauses over a slot m or a byte j, the first
and the last of each, cut off right after the sample and as late as the clause goes. -/
theorem witness_PartialTemperatureReadShowsWhatWasSampled : State.reset.busy = false ∧
    (∀ n < 6328, (List.replicate n quiet).length < 6328 ∧ Clean planReadTemp (List.replicate n quiet)) ∧
    (1957 + 61 * 0 < 1958 ∧ 1958 ≤ 1957 + 61 * (0 + 1)) ∧
    (1957 + 61 * 71 < 6327 ∧ 6327 ≤ 1957 + 61 * (71 + 1)) ∧
    (1957 + 488 * 0 + 61 * 0 < 2445 ∧ 2445 ≤ 1957 + 488 * (0 + 1) + 61 * 0) ∧
    (1957 + 488 * 8 + 61 * 7 < 6327 ∧ 6327 ≤ 1957 + 488 * (8 + 1) + 61 * 7) :=
  ⟨rfl, fun n h => ⟨by rwa [List.length_replicate], clean_quiet _ _⟩, by decide⟩

theorem witness_WaveformIsThatOfThePlan : State.reset.busy = false ∧ (Instr.writeByte 0xA5).wellFormed = true ∧
    (List.replicate 488 quiet).length = planLength (plan (.writeByte 0xA5) State.reset.buf) ∧
    Clean (plan (.writeByte 0xA5) State.reset.buf) (List.replicate 488 quiet) :=
  ⟨rfl, rfl, by rw [List.length_replicate]; decide, clean_quiet _ _⟩

/-- Two states in flight with different results, a tick in which only `dev` differs, and the next state. -/
theorem witness_DevicesCannotInfluenceTheWaveform :
    SameDrive (inFlight 0x0300 21) { inFlight 0x0300 21 with rbit := true, sr := 0xA5, temp := 0x0550 } ∧
    List.Forall₂ SameFaults [quiet] [pulled] ∧ ∃ t, runTicks [quiet] (inFlight 0x0300 21) = .next t := by
  have h : meets (runTicks [quiet] (inFlight 0x0300 21)) (fun _ => true) = true := by decide
  obtain ⟨t, ht, _⟩ := exists_of_meets h
  exact ⟨⟨rfl, rfl, rfl, rfl, rfl, rfl, rfl, fun _ => rfl⟩, .cons ⟨rfl, rfl⟩ .nil, t, ht⟩

theorem witness_ConvertEqualsItsBusEngineCommands : State.reset.busy = false ∧
    (List.replicate 960 quiet).length = 960 ∧ (List.replicate 488 quiet).length = 488 ∧
    Clean planConvert (List.replicate 960 quiet ++ List.replicate 488 quiet ++ List.replicate 488 quiet) := by
  refine ⟨rfl, List.length_replicate, List.length_replicate, ?_⟩
  simp only [List.replicate_append_replicate]
  exact clean_quiet _ _

theorem witness_ReadTempEqualsItsBusEngineCommands : State.reset.busy = false ∧
    (List.replicate 960 quiet).length = 960 ∧ (List.replicate 488 quiet).length = 488 ∧
    (List.replicate 4392 quiet).length = 4392 ∧
    Clean planReadTemp (List.replicate 960 quiet ++ List.replicate 488 quiet ++ List.replicate 488 quiet
      ++ List.replicate 4392 quiet) := by
  refine ⟨rfl, List.length_replicate, List.length_replicate, List.length_replicate, ?_⟩
  simp only [List.replicate_append_replicate]
  exact clean_quiet _ _

theorem devAt_quiet (n o : Nat) : devAt (List.replicate n quiet) o = false := by
  unfold devAt
  rw [List.getElem?_replicate]
  split <;> rename_i h
  · split at h
    · cases h
      rfl
    · cases h
  · rfl

/-- The offsets 1 and 59, and a written 0xFF, which the device answers by never pulling low. -/
theorem witness_EchoingDeviceReturnsTheByteWritten : State.reset.busy = false ∧
    (1 ≤ 1 ∧ 1 ≤ 59) ∧ (1 ≤ 59 ∧ 59 ≤ 59) ∧ (List.replicate 488 quiet).length = 488 ∧
    Clean (planWriteByte 0xFF) (List.replicate 488 quiet) ∧ Clean planReadByte (List.replicate 488 quiet) ∧
    ∀ i : BitIndex, devAt (List.replicate 488 quiet) (61 * i.val + 59) = false :=
  ⟨rfl, by decide, by decide, List.length_replicate, clean_quiet _ _, clean_quiet _ _,
    fun _ => devAt_quiet _ _⟩

/-! Steps. -/

theorem witness_EveryStepKeepsTheInvariant : ∃ s t : State, s.Inv ∧ step s = .next t ∧ s.busy = true := by
  have hi := inv_inFlight_readBit 21 (by decide) (by decide)
  have h : meets (step { inFlight 0x0300 21 with pending := [.tick quiet] }) (fun _ => true) = true := by decide
  obtain ⟨t, ht, _⟩ := exists_of_meets h
  exact ⟨{ inFlight 0x0300 21 with pending := [.tick quiet] }, t, ⟨hi.busy_excludes_result, hi.one_result, hi.idle_released, hi.in_flight, hi.drive, hi.cmd_legal,
    hi.fresh, hi.ended⟩, ht, rfl⟩

theorem witness_NoStopUnderTheInvariant : (inFlight 0x0300 21).Inv :=
  inv_inFlight_readBit 21 (by decide) (by decide)

/-- `ILL` rises by an illegal word, `REJ` by a write while busy. -/
theorem witness_RefusalFlagsRiseByBusy :
    meets (step (scheduled [.write 0x00 0x0000])) (fun t => t.ill) = true ∧
    (scheduled [.write 0x00 0x0000]).ill = false ∧
    meets (step { inFlight 0x0300 21 with pending := [.write 0x18 0x0055] }) (fun t => t.rej) = true ∧
    (inFlight 0x0300 21).rej = false := by decide

/-- An acceptance that clears all three. -/
theorem witness_RefusalAndErrorFlagsFallOnlyAtAcceptance :
    meets (step { scheduled [.write 0x00 0x0300] with rej := true, ill := true, err := true })
      (fun t => !t.rej && !t.ill && !t.err) = true ∧
    (nextAction (scheduled [.write 0x00 0x0300])).1.isReset = false := by decide

theorem witness_CmdChangesOnlyByAcceptance :
    meets (step (scheduled [.write 0x00 0x0300])) (fun t => t.cmd != State.reset.cmd) = true ∧
    (nextAction (scheduled [.write 0x00 0x0300])).1.isReset = false := by decide

theorem witness_TempChangesOnlyAtReadTempCompletion :
    meets (step { inFlight 0x0900 6327 with buf := bufSet State.reset.buf 1 0x01, pending := [.tick quiet] })
      (fun t => t.temp != State.reset.temp) = true := by decide

theorem witness_ErrcodeChangesOnlyByAbort :
    meets (step { inFlight 0x0300 21 with pending := [.tick (failing 0x5A)] })
      (fun t => t.errcode != State.reset.errcode) = true := by decide

/-- `PRES`; `RBIT`, `SR` and `BUF` together; `drv`; and `BUF` by the host. -/
theorem witness_ResultsChangeOnlyInTicksOfACommand :
    meets (step { inFlight 0x0100 545 with pending := [.tick pulled] }) (fun t => t.pres) = true ∧
    meets (step { inFlight 0x0701 448 with pending := [.tick quiet] })
      (fun t => t.rbit && t.sr != 0x00 && t.buf != State.reset.buf) = true ∧
    meets (step { inFlight 0x0100 0 with pending := [.tick quiet] }) (fun t => t.drv) = true ∧
    meets (step (scheduled [.write 0x18 0x0055])) (fun t => t.buf != State.reset.buf) = true := by decide

end Sys2Proof.Tests
end

section
/-! What a step performs, by the schedule: its head where there is one, else a tick with free inputs. -/

namespace Sys2Proof.Machine

@[simp] theorem perform_tick (x : TickInput) (s : State) : perform (.tick x) s = tick x s := rfl

@[simp] theorem perform_write (a : Addr) (v : Word) (s : State) :
    perform (.write a v) s = regWrite a v s := rfl

@[simp] theorem perform_read (a : Addr) (s : State) : perform (.read a) s = hostRead a s := rfl

theorem nextAction_of_pending_cons {s : State} {a : Action} {rest : List Action}
    (h : s.pending = a :: rest) : nextAction s = (a, { s with pending := rest }) := by
  simp only [nextAction, h]

theorem nextAction_of_pending_nil {s : State} (h : s.pending = []) :
    nextAction s = (.tick (freeTick s.draws), { s with draws := s.draws + 1 }) := by
  simp only [nextAction, h]

/-- R5: a scheduled action is performed on the state with the action taken off the schedule. -/
theorem step_of_pending_cons {s : State} {a : Action} {rest : List Action}
    (h : s.pending = a :: rest) : step s = perform a { s with pending := rest } := by
  rw [step, nextAction_of_pending_cons h]

/-- Log entry 3: with nothing scheduled a tick passes, with free inputs. -/
theorem step_of_pending_nil {s : State} (h : s.pending = []) :
    step s = tick (freeTick s.draws) { s with draws := s.draws + 1 } := by
  rw [step, nextAction_of_pending_nil h, perform_tick]

/-- Settles O9: the step performs the head of the schedule, whichever agent's action it is, and a tick with
free inputs where the schedule is empty. -/
theorem stepPerformsTheNextAction : Obligations.StepPerformsTheNextAction := by
  unfold Obligations.StepPerformsTheNextAction
  intro s x a v rest
  refine ⟨fun h => ?tick, fun h => ?write, fun h => ?read, fun h => ?empty⟩
  case tick => rw [step_of_pending_cons h, perform_tick]
  case write => rw [step_of_pending_cons h, perform_write]
  case read => rw [step_of_pending_cons h, perform_read]
  case empty => rw [step_of_pending_nil h, freeTick]

end Sys2Proof.Machine
end

section
/-! The decoder read backwards: a decoded word is the word of its command, and that word is legal
(30_encoding.md R90 to R94, R100). -/

namespace Sys2Proof

theorem decodeC0_eq_command {i j : Instr} {arg : Byte} (h : decodeC0 i arg = .command j) :
    i = j ∧ arg = 0 := by
  unfold decodeC0 at h
  split at h
  · next hz => exact ⟨Decoded.command.inj h, hz⟩
  · cases h

/-- A byte whose upper seven bits are 0 is its bit 0. -/
theorem setWidth_ofBool_getLsbD_zero : ∀ {arg : Byte}, arg.extractLsb' 1 7 = 0 →
    (BitVec.ofBool (arg.getLsbD 0)).setWidth 8 = arg := by decide

/-- A byte whose upper four bits are 0 is its lower four. -/
theorem setWidth_extractLsb'_zero : ∀ {arg : Byte}, arg.extractLsb' 4 4 = 0 →
    (arg.extractLsb' 0 4).setWidth 8 = arg := by decide

theorem decodeCB_eq_command {f : Bool → Instr} {j : Instr} {arg : Byte} (h : decodeCB f arg = .command j) :
    ∃ b, f b = j ∧ (BitVec.ofBool b).setWidth 8 = arg := by
  unfold decodeCB at h
  split at h
  · next hz => exact ⟨_, Decoded.command.inj h, setWidth_ofBool_getLsbD_zero hz⟩
  · cases h

theorem decodeCN_eq_command {f : BitVec 4 → Instr} {j : Instr} {arg : Byte} (h : decodeCN f arg = .command j) :
    ∃ n : BitVec 4, f n = j ∧ n.setWidth 8 = arg := by
  unfold decodeCN at h
  split at h
  · next hz =>
    split at h
    · exact ⟨_, Decoded.command.inj h, setWidth_extractLsb'_zero hz⟩
    · cases h
  · cases h

theorem decode_eq_some {v : Word} {i : Instr} : decode v = some i ↔ decodeWord v = .command i := by
  unfold decode
  split <;> simp [*]

/-- The fields of a decoded word are those of its command. -/
theorem decode_fields {v : Word} {i : Instr} (h : decode v = some i) :
    zField v = 0 ∧ (opField v).toNat = i.opcode.toNat ∧ argField v = i.argument := by
  rw [decode_eq_some, decodeWord] at h
  split at h
  case isFalse => cases h
  case isTrue hz =>
    refine ⟨hz, ?_⟩
    split at h
    case h_4 ho => cases h; exact ⟨ho, rfl⟩
    case h_2 ho => obtain ⟨b, rfl, hb⟩ := decodeCB_eq_command h; exact ⟨ho, hb.symm⟩
    case h_6 ho => obtain ⟨n, rfl, hn⟩ := decodeCN_eq_command h; exact ⟨ho, hn.symm⟩
    case h_7 ho => obtain ⟨n, rfl, hn⟩ := decodeCN_eq_command h; exact ⟨ho, hn.symm⟩
    case h_10 => cases h
    all_goals
      next ho =>
        obtain ⟨rfl, ha⟩ := decodeC0_eq_command h
        exact ⟨ho, ha⟩

theorem opField_of_decode {v : Word} {i : Instr} (h : decode v = some i) : opField v = i.opcode := by
  obtain ⟨_, ho, _⟩ := decode_fields h
  exact BitVec.eq_of_toNat_eq ho

/-- R94: a decoded word is the word of its command. -/
theorem encode_of_decode {v : Word} {i : Instr} (h : decode v = some i) : encode i = v := by
  obtain ⟨hz, _, ha⟩ := decode_fields h
  apply word_ext
  · rw [zField_encode, hz]
  · rw [opField_encode, opField_of_decode h]
  · rw [argField_encode, ha]

/-- R100: the word of a well-formed command is legal. -/
theorem legal_encode {i : Instr} (h : i.wellFormed = true) : legal (encode i) = true := by
  unfold legal
  rw [zField_encode, opField_encode, argField_encode]
  cases i with
  | writeBit b => revert b; decide
  | writeBytes n => revert n; decide
  | readBytes n => revert n; decide
  | writeByte d => simp [Instr.opcode]
  | reset | readBit | readByte | convert | readTemp => decide

theorem legal_of_decode {v : Word} {i : Instr} (h : decode v = some i) : legal v = true :=
  encode_of_decode h ▸ legal_encode (decode_wellFormed h)

theorem ne_zero_of_legal {v : Word} (h : legal v = true) : v ≠ 0 := by
  rintro rfl
  exact absurd h (by decide)

end Sys2Proof
end

section
/-! What an action taken off the schedule, an event and a tick of a plan do to the single fields of the block
(10_state.md R20, 40_bus_bit.md R113). -/

namespace Sys2Proof.Machine

/-! ## Taking an action off the schedule touches no field of the block -/

section
variable (s : State)

@[simp] theorem nextAction_cmd : (nextAction s).2.cmd = s.cmd := by
  obtain ⟨_, _, h⟩ := nextAction_frame s; rw [h]
@[simp] theorem nextAction_busy : (nextAction s).2.busy = s.busy := by
  obtain ⟨_, _, h⟩ := nextAction_frame s; rw [h]
@[simp] theorem nextAction_done : (nextAction s).2.done = s.done := by
  obtain ⟨_, _, h⟩ := nextAction_frame s; rw [h]
@[simp] theorem nextAction_err : (nextAction s).2.err = s.err := by
  obtain ⟨_, _, h⟩ := nextAction_frame s; rw [h]
@[simp] theorem nextAction_pres : (nextAction s).2.pres = s.pres := by
  obtain ⟨_, _, h⟩ := nextAction_frame s; rw [h]
@[simp] theorem nextAction_rbit : (nextAction s).2.rbit = s.rbit := by
  obtain ⟨_, _, h⟩ := nextAction_frame s; rw [h]
@[simp] theorem nextAction_rej : (nextAction s).2.rej = s.rej := by
  obtain ⟨_, _, h⟩ := nextAction_frame s; rw [h]
@[simp] theorem nextAction_ill : (nextAction s).2.ill = s.ill := by
  obtain ⟨_, _, h⟩ := nextAction_frame s; rw [h]
@[simp] theorem nextAction_sr : (nextAction s).2.sr = s.sr := by
  obtain ⟨_, _, h⟩ := nextAction_frame s; rw [h]
@[simp] theorem nextAction_temp : (nextAction s).2.temp = s.temp := by
  obtain ⟨_, _, h⟩ := nextAction_frame s; rw [h]
@[simp] theorem nextAction_errcode : (nextAction s).2.errcode = s.errcode := by
  obtain ⟨_, _, h⟩ := nextAction_frame s; rw [h]
@[simp] theorem nextAction_buf : (nextAction s).2.buf = s.buf := by
  obtain ⟨_, _, h⟩ := nextAction_frame s; rw [h]
@[simp] theorem nextAction_drv : (nextAction s).2.drv = s.drv := by
  obtain ⟨_, _, h⟩ := nextAction_frame s; rw [h]
@[simp] theorem nextAction_k : (nextAction s).2.k = s.k := by
  obtain ⟨_, _, h⟩ := nextAction_frame s; rw [h]

end

/-! ## The event of an offset writes results and the driver -/

section
variable (s : State) (p : List Slot) (x : TickInput)

@[simp] theorem State.afterEvent_cmd : (s.afterEvent p x).cmd = s.cmd := by
  obtain ⟨_, _, _, _, _, h⟩ := s.afterEvent_frame p x; rw [h]
@[simp] theorem State.afterEvent_busy : (s.afterEvent p x).busy = s.busy := by
  obtain ⟨_, _, _, _, _, h⟩ := s.afterEvent_frame p x; rw [h]
@[simp] theorem State.afterEvent_done : (s.afterEvent p x).done = s.done := by
  obtain ⟨_, _, _, _, _, h⟩ := s.afterEvent_frame p x; rw [h]
@[simp] theorem State.afterEvent_err : (s.afterEvent p x).err = s.err := by
  obtain ⟨_, _, _, _, _, h⟩ := s.afterEvent_frame p x; rw [h]
@[simp] theorem State.afterEvent_rej : (s.afterEvent p x).rej = s.rej := by
  obtain ⟨_, _, _, _, _, h⟩ := s.afterEvent_frame p x; rw [h]
@[simp] theorem State.afterEvent_ill : (s.afterEvent p x).ill = s.ill := by
  obtain ⟨_, _, _, _, _, h⟩ := s.afterEvent_frame p x; rw [h]
@[simp] theorem State.afterEvent_temp : (s.afterEvent p x).temp = s.temp := by
  obtain ⟨_, _, _, _, _, h⟩ := s.afterEvent_frame p x; rw [h]
@[simp] theorem State.afterEvent_errcode : (s.afterEvent p x).errcode = s.errcode := by
  obtain ⟨_, _, _, _, _, h⟩ := s.afterEvent_frame p x; rw [h]

theorem State.afterEvent_drv :
    (s.afterEvent p x).drv = LineEvent.drive s.drv (eventAt p s.k.toNat) := quietTick_drv p x s

variable {s p} in
/-- Results come from samples only: an offset without one leaves `PRES`, `RBIT` and `SR`. -/
theorem State.afterEvent_of_no_sample (h : ∀ d, eventAt p s.k.toNat ≠ some (.S d)) :
    (s.afterEvent p x).pres = s.pres ∧ (s.afterEvent p x).rbit = s.rbit ∧ (s.afterEvent p x).sr = s.sr := by
  unfold State.afterEvent
  cases he : eventAt p s.k.toNat with
  | none => exact ⟨rfl, rfl, rfl⟩
  | some e =>
    cases e with
    | L => exact ⟨rfl, rfl, rfl⟩
    | H => exact ⟨rfl, rfl, rfl⟩
    | S d => exact absurd he (h d)

/-! ## A tick of a plan (R113): how it can end, and the fields it leaves alone -/

/-- A tick of a plan aborts, completes the command, or moves on by one offset. -/
theorem State.tickPlan_outcome :
    (x.lineErr = true ∧ s.tickPlan p x = s.raiseLineIO x.lineErrCode) ∨
    (s.k.toNat + 1 = planLength p ∧ s.tickPlan p x = (s.afterEvent p x).complete) ∨
    (s.k.toNat + 1 ≠ planLength p ∧ s.tickPlan p x = { s.afterEvent p x with k := s.k + 1 }) := by
  rcases s.tickPlan_cases p x with ⟨_, hx, ht⟩ | ⟨_, ht⟩
  · exact .inl ⟨hx, ht⟩
  · rw [ht]
    by_cases hk : s.k.toNat + 1 = planLength p
    · exact .inr (.inl ⟨hk, State.advance_last (by simpa using hk)⟩)
    · refine .inr (.inr ⟨hk, ?_⟩)
      rw [State.advance_inside (by simpa using hk), State.afterEvent_k]

@[simp] theorem State.tickPlan_cmd : (s.tickPlan p x).cmd = s.cmd := by
  rcases s.tickPlan_outcome p x with ⟨_, h⟩ | ⟨_, h⟩ | ⟨_, h⟩ <;> simp [h]

@[simp] theorem State.tickPlan_rej : (s.tickPlan p x).rej = s.rej := by
  rcases s.tickPlan_outcome p x with ⟨_, h⟩ | ⟨_, h⟩ | ⟨_, h⟩ <;> simp [h]

@[simp] theorem State.tickPlan_ill : (s.tickPlan p x).ill = s.ill := by
  rcases s.tickPlan_outcome p x with ⟨_, h⟩ | ⟨_, h⟩ | ⟨_, h⟩ <;> simp [h]

variable {s} in
/-- R25: no tick clears `ERR`. -/
theorem State.tickPlan_err (h : s.err = true) : (s.tickPlan p x).err = true := by
  rcases s.tickPlan_outcome p x with ⟨_, ht⟩ | ⟨_, ht⟩ | ⟨_, ht⟩ <;> simp [ht, h]

variable {s p x} in
/-- R32: a tick that changes `TEMP` completes operation 9. -/
theorem State.tickPlan_temp (h : (s.tickPlan p x).temp ≠ s.temp) :
    opField s.cmd = 9 ∧ (s.tickPlan p x).busy = false ∧ (s.tickPlan p x).done = true ∧
      (s.tickPlan p x).temp = decodedWord (s.tickPlan p x).buf := by
  rcases s.tickPlan_outcome p x with ⟨_, ht⟩ | ⟨_, ht⟩ | ⟨_, ht⟩ <;> rw [ht] at h ⊢
  case inl => exact absurd rfl h
  case inr.inr => exact absurd (s.afterEvent_temp p x) h
  case inr.inl =>
    have h9 : opField s.cmd = 9 := by
      by_contra hn
      exact h (by rw [State.complete_temp, State.afterEvent_cmd, if_neg hn, State.afterEvent_temp])
    exact ⟨h9, rfl, rfl, by rw [State.complete_temp, State.afterEvent_cmd, if_pos h9, State.complete_buf]⟩

variable {s p x} in
/-- R33: a tick that changes `ERRCODE` aborts the command with its code. -/
theorem State.tickPlan_errcode (h : (s.tickPlan p x).errcode ≠ s.errcode) :
    x.lineErr = true ∧ s.tickPlan p x = s.raiseLineIO x.lineErrCode := by
  rcases s.tickPlan_outcome p x with ha | ⟨_, ht⟩ | ⟨_, ht⟩
  case inl => exact ha
  all_goals
    rw [ht] at h
    exact absurd (s.afterEvent_errcode p x) h

variable {s p} in
/-- R26, R27, R30: a tick at an offset without a sample leaves `PRES`, `RBIT` and `SR`. -/
theorem State.tickPlan_of_no_sample (h : ∀ d, eventAt p s.k.toNat ≠ some (.S d)) :
    (s.tickPlan p x).pres = s.pres ∧ (s.tickPlan p x).rbit = s.rbit ∧ (s.tickPlan p x).sr = s.sr := by
  rcases s.tickPlan_outcome p x with ⟨_, ht⟩ | ⟨_, ht⟩ | ⟨_, ht⟩ <;> rw [ht]
  case inl => exact ⟨rfl, rfl, rfl⟩
  all_goals exact State.afterEvent_of_no_sample x h

end

end Sys2Proof.Machine
end

section
/-! The invariant of 10_state.md R31: the two shapes a state that meets it has, what keeps it, and that every
step does. -/

namespace Sys2Proof.Machine

/-- Settles O51: R31 at reset, where `CMD` is 0x0000 and the block idle with the line released. -/
theorem resetMeetsTheInvariant : Obligations.ResetMeetsTheInvariant where
  busy_excludes_result h := nomatch h
  one_result h := nomatch h.1
  idle_released _ := ⟨rfl, rfl⟩
  in_flight h := nomatch h
  drive h := nomatch h
  cmd_legal := .inl rfl
  fresh _ := ⟨rfl, rfl, rfl⟩
  ended h := absurd rfl h

/-! ## The two shapes: an idle block after its first command, a command in flight -/

section
variable {s t : State}

/-- An idle block whose last command has ended in one of `DONE` and `ERR` meets the invariant. -/
theorem State.Inv.of_idle (hb : s.busy = false) (hc : legal s.cmd = true) (hd : s.drv = false) (hk : s.k = 0)
    (hr : s.done = true ↔ s.err = false) : s.Inv where
  busy_excludes_result h := absurd h (by simp [hb])
  one_result := fun ⟨h, he⟩ => absurd (hr.mp h) (by simp [he])
  idle_released _ := ⟨hd, hk⟩
  in_flight h := absurd h (by simp [hb])
  drive h := absurd h (by simp [hb])
  cmd_legal := .inr hc
  fresh h := absurd h (ne_zero_of_legal hc)
  ended _ _ := hr

/-- A command in flight, inside its plan and with the driver as the plan has it, meets the invariant. -/
theorem State.Inv.of_inFlight {i : Instr} (hb : s.busy = true) (hd : s.done = false) (he : s.err = false)
    (hi : decode s.cmd = some i) (hk : s.k.toNat < planLength (plan i s.buf))
    (hdrv : s.drv = (decide (0 < s.k.toNat) && lowAt (plan i s.buf) (s.k.toNat - 1))) : s.Inv where
  busy_excludes_result _ := ⟨hd, he⟩
  one_result := fun ⟨h, _⟩ => absurd h (by simp [hd])
  idle_released h := absurd h (by simp [hb])
  in_flight _ := ⟨i, hi, hk⟩
  drive _ j hj := by
    obtain rfl : i = j := Option.some.inj (hi.symm.trans hj)
    exact hdrv
  cmd_legal := .inr (legal_of_decode hi)
  fresh h := absurd h (ne_zero_of_legal (legal_of_decode hi))
  ended _ h := absurd h (by simp [hb])

/-- The invariant speaks of `CMD`, `BUSY`, `DONE`, `ERR`, `drv` and `k`, and of `BUF` while `BUSY` = 1. -/
theorem State.Inv.congr (h : s.Inv) (hc : t.cmd = s.cmd) (hb : t.busy = s.busy) (hd : t.done = s.done)
    (he : t.err = s.err) (hl : t.drv = s.drv) (hk : t.k = s.k) (hm : s.busy = true → t.buf = s.buf) :
    t.Inv where
  busy_excludes_result := by rw [hb, hd, he]; exact h.busy_excludes_result
  one_result := by rw [hd, he]; exact h.one_result
  idle_released := by rw [hb, hl, hk]; exact h.idle_released
  in_flight hbusy := by
    rw [hb] at hbusy
    rw [hc, hk, hm hbusy]
    exact h.in_flight hbusy
  drive hbusy := by
    rw [hb] at hbusy
    rw [hc, hk, hl, hm hbusy]
    exact h.drive hbusy
  cmd_legal := by rw [hc]; exact h.cmd_legal
  fresh := by rw [hc, hb, hd, he]; exact h.fresh
  ended := by rw [hc, hb, hd, he]; exact h.ended

/-! ## What keeps it -/

/-- Acceptance by an idle block starts the command, or ends it in the write where it has no ticks. -/
theorem State.Inv.accept {i : Instr} {v : Word} (h : s.Inv) (hb : s.busy = false) (hi : decode v = some i) :
    (s.accept (encode i) (planLength (plan i s.buf))).Inv := by
  have hdrv : s.drv = false := (h.idle_released hb).1
  rw [encode_of_decode hi]
  by_cases hn : planLength (plan i s.buf) = 0
  · exact .of_idle (by simp [hn]) (legal_of_decode hi) hdrv rfl (by simp [hn])
  · exact .of_inFlight (i := i) (by simp [hn]) (by simp [hn]) rfl hi (Nat.pos_of_ne_zero hn) (by simpa using hdrv)

/-- What the invariant says of a command in flight. -/
theorem State.Inv.plan_inFlight {i : Instr} (h : s.Inv) (hb : s.busy = true) (hi : decode s.cmd = some i) :
    s.done = false ∧ s.err = false ∧ s.k.toNat < planLength (plan i s.buf) ∧
      s.drv = (decide (0 < s.k.toNat) && lowAt (plan i s.buf) (s.k.toNat - 1)) := by
  obtain ⟨hd, he⟩ := h.busy_excludes_result hb
  obtain ⟨j, hj, hk⟩ := h.in_flight hb
  obtain rfl : j = i := Option.some.inj (hj.symm.trans hi)
  exact ⟨hd, he, hk, h.drive hb j hi⟩

/-- The event of an offset leaves the driver as the plan has it there. -/
theorem State.Inv.afterEvent_drv {i : Instr} (h : s.Inv) (hb : s.busy = true) (hi : decode s.cmd = some i)
    (x : TickInput) :
    (s.afterEvent (plan i s.buf) x).drv = lowAt (plan i s.buf) s.k.toNat := by
  obtain ⟨_, _, hk, hdrv⟩ := h.plan_inFlight hb hi
  rw [State.afterEvent_drv, hdrv, ← lowAt_event _ hk]

/-- While the invariant holds no position is lost to the width of `k`. -/
theorem State.Inv.k_succ {i : Instr} (h : s.Inv) (hb : s.busy = true) (hi : decode s.cmd = some i) :
    (s.k + 1).toNat = s.k.toNat + 1 := by
  obtain ⟨_, _, hk, _⟩ := h.plan_inFlight hb hi
  have := planLength_plan_le i s.buf
  exact toNat_succ (by omega)

/-- R113: abort and completion leave an idle block with the line released, any other tick leaves the command
in flight one offset further. -/
theorem State.Inv.tickPlan {i : Instr} (h : s.Inv) (hb : s.busy = true) (hi : decode s.cmd = some i)
    (x : TickInput) : (s.tickPlan (plan i s.buf) x).Inv := by
  obtain ⟨hd, he, hk, _⟩ := h.plan_inFlight hb hi
  have hlow := h.afterEvent_drv hb hi x
  rcases s.tickPlan_outcome (plan i s.buf) x with ⟨_, ht⟩ | ⟨hlast, ht⟩ | ⟨hlast, ht⟩ <;> rw [ht]
  case inl => exact .of_idle rfl (legal_of_decode hi) rfl rfl (by simp [hd])
  case inr.inl =>
    have hdrv : (s.afterEvent (plan i s.buf) x).complete.drv = false := hlow.trans (lowAt_last _ hlast)
    exact .of_idle rfl (by simpa using legal_of_decode hi) hdrv rfl (by simp [he])
  case inr.inr =>
    refine .of_inFlight (i := i) ?_ ?_ ?_ ?_ ?_ ?_
    · simpa using hb
    · simpa using hd
    · simpa using he
    · simpa using hi
    · rw [plan_afterEvent, h.k_succ hb hi]
      omega
    · rw [plan_afterEvent, h.k_succ hb hi]
      simpa using hlow

/-- One performed action keeps the invariant. -/
theorem StepCase.inv {a : Action} (hs : StepCase s a t) (h : s.Inv) : t.Inv := by
  cases hs with
  | busyTick x i hb hi => exact (h.tickPlan hb hi x).congr rfl rfl rfl rfl rfl rfl fun _ => rfl
  | accepted v i hb hi => exact h.accept hb hi
  | bufferWrite _ _ _ hb _ => exact h.congr rfl rfl rfl rfl rfl rfl fun hbusy => absurd hbusy (by simp [hb])
  | reset | writeInReset =>
    exact State.Inv.congr resetMeetsTheInvariant rfl rfl rfl rfl rfl rfl fun _ => rfl
  | idleTick | rejectedCmd | illegalCmd | rejectedBuf | ignoredWrite | read =>
    exact h.congr rfl rfl rfl rfl rfl rfl fun _ => rfl

/-- Taking an action off the schedule keeps the invariant. -/
theorem State.Inv.nextAction (h : s.Inv) : (nextAction s).2.Inv :=
  h.congr (by simp) (by simp) (by simp) (by simp) (by simp) (by simp) (by simp)

end

/-- Settles O52, by the cases of a step: a tick of the command in flight keeps the driver as the plan has it
and so ends with the line released; the other actions touch nothing the invariant speaks of, start a command, or
reset the block. -/
theorem everyStepKeepsTheInvariant : Obligations.EveryStepKeepsTheInvariant := by
  unfold Obligations.EveryStepKeepsTheInvariant
  intro s t h hs
  exact (step_cases hs).inv h.nextAction

/-- Settles O26: k lies inside the plan, whose length is at most 6328, and each of the three ways a tick can end
says what k becomes. -/
theorem positionAdvancesByOne : Obligations.PositionAdvancesByOne := by
  unfold Obligations.PositionAdvancesByOne
  intro s t x h hb ht
  obtain ⟨i, hi, hk⟩ := h.in_flight hb
  obtain ⟨hd, he, _, _⟩ := h.plan_inFlight hb hi
  have hmax := planLength_plan_le i s.buf
  refine ⟨by omega, ?_⟩
  rw [tick_busy hb hi] at ht
  cases ht
  rcases s.tickPlan_outcome (plan i s.buf) x with ⟨_, ht⟩ | ⟨_, ht⟩ | ⟨_, ht⟩ <;> rw [ht]
  case inl => exact .inr ⟨rfl, rfl, by simp [hd]⟩
  case inr.inl => exact .inr ⟨rfl, rfl, by simp [he]⟩
  case inr.inr => exact .inl ⟨by simpa using hb, h.k_succ hb hi⟩

end Sys2Proof.Machine
end

section
/-! When each flag and register of the block may change: consequences of the cases of a step (10_state.md R21 to
R35). -/

namespace Sys2Proof.Machine

/-! ## One performed action -/

section
variable {s t : State} {a : Action} (h : StepCase s a t)
include h

/-- R28, R29: an illegal word to an idle block is the only action that raises `ILL`, a write to a busy one the
only one that raises `REJ`. -/
theorem StepCase.busy_or_refusal_kept :
    (s.busy = false ∨ (t.ill = true → s.ill = true)) ∧ (s.busy = true ∨ (t.rej = true → s.rej = true)) := by
  cases h with
  | illegalCmd _ hb _ => exact ⟨.inl hb, .inr id⟩
  | rejectedCmd _ hb | rejectedBuf _ _ _ hb _ => exact ⟨.inr id, .inl hb⟩
  | busyTick => exact ⟨.inr (by simp), .inr (by simp)⟩
  | accepted | reset | writeInReset => exact ⟨.inr nofun, .inr nofun⟩
  | idleTick | bufferWrite | ignoredWrite | read => exact ⟨.inr id, .inr id⟩

/-- R21: an action other than a reset accepts a command, whose word `CMD` then holds, or leaves `CMD` and keeps
`REJ`, `ILL` and `ERR` where they are set. -/
theorem StepCase.accepts_or_keeps (hr : a.isReset = false) :
    (s.busy = false ∧ a = .write 0x00 t.cmd ∧ legal t.cmd = true) ∨
    (t.cmd = s.cmd ∧ (s.rej = true → t.rej = true) ∧ (s.ill = true → t.ill = true) ∧
      (s.err = true → t.err = true)) := by
  cases h with
  | accepted v i hb hi =>
    rw [State.accept_cmd, encode_of_decode hi]
    exact .inl ⟨hb, rfl, legal_of_decode hi⟩
  | busyTick x i _ _ =>
    exact .inr ⟨by simp, fun h₀ => by simpa using h₀, fun h₀ => by simpa using h₀, State.tickPlan_err _ x⟩
  | rejectedCmd | rejectedBuf => exact .inr ⟨rfl, fun _ => rfl, id, id⟩
  | illegalCmd => exact .inr ⟨rfl, id, fun _ => rfl, id⟩
  | reset | writeInReset => cases hr
  | idleTick | bufferWrite | ignoredWrite | read => exact .inr ⟨rfl, id, id, id⟩

/-- R32: only the completion of operation 9 changes `TEMP`. -/
theorem StepCase.temp (hr : a.isReset = false) (ht : t.temp ≠ s.temp) :
    s.busy = true ∧ opField s.cmd = 9 ∧ t.busy = false ∧ t.done = true ∧ t.temp = decodedWord t.buf := by
  cases h with
  | busyTick x i hb _ => exact ⟨hb, State.tickPlan_temp ht⟩
  | reset | writeInReset => cases hr
  | _ => exact absurd rfl ht

/-- R33: only an abort changes `ERRCODE`. -/
theorem StepCase.errcode (hr : a.isReset = false) (ht : t.errcode ≠ s.errcode) :
    s.busy = true ∧ t.busy = false ∧ t.err = true ∧
      ∃ x, a = .tick x ∧ x.lineErr = true ∧ t.errcode = x.lineErrCode := by
  cases h with
  | busyTick x i hb _ =>
    obtain ⟨hx, hp⟩ := State.tickPlan_errcode ht
    rw [hp]
    exact ⟨hb, rfl, rfl, x, rfl, hx, rfl⟩
  | reset | writeInReset => cases hr
  | _ => exact absurd rfl ht

/-- R26, R27, R30, R35: an action other than a reset is a tick of a command in flight, or leaves `PRES`, `RBIT`,
`SR` and `drv`; and `BUF` too, unless it is the write of a byte of it to an idle block (R34). -/
theorem StepCase.tick_or_keeps (hr : a.isReset = false) :
    (s.busy = true ∧ a.isTick = true ∧ ∃ x i, decode s.cmd = some i ∧
      t = (s.tickPlan (plan i s.buf) x).tickTime) ∨
    (t.pres = s.pres ∧ t.rbit = s.rbit ∧ t.sr = s.sr ∧ t.drv = s.drv ∧
      (t.buf = s.buf ∨
        s.busy = false ∧ ∃ b v, a = .write b v ∧ 0x10 ≤ b.toNat ∧ b.toNat ≤ 0x18)) := by
  cases h with
  | busyTick x i hb hi => exact .inl ⟨hb, rfl, x, i, hi, rfl⟩
  | bufferWrite b j v hb hp =>
    have hj := portReg_buf.mp hp
    exact .inr ⟨rfl, rfl, rfl, rfl, .inr ⟨hb, b, v, rfl, by omega, by omega⟩⟩
  | reset | writeInReset => cases hr
  | _ => exact .inr ⟨rfl, rfl, rfl, rfl, .inl rfl⟩

/-- R26, R27, R30: `PRES`, `RBIT` and `SR` change at a sample only. -/
theorem StepCase.results (hr : a.isReset = false) (ht : t.pres ≠ s.pres ∨ t.rbit ≠ s.rbit ∨ t.sr ≠ s.sr) :
    ∃ i d, decode s.cmd = some i ∧ eventAt (plan i s.buf) s.k.toNat = some (.S d) := by
  rcases h.tick_or_keeps hr with ⟨_, _, x, i, hi, rfl⟩ | ⟨hpres, hrbit, hsr, _, _⟩
  · by_contra hn
    have hno : ∀ d, eventAt (plan i s.buf) s.k.toNat ≠ some (.S d) := fun d hd => hn ⟨i, d, hi, hd⟩
    obtain ⟨hpres, hrbit, hsr⟩ := State.tickPlan_of_no_sample x hno
    simp [hpres, hrbit, hsr] at ht
  · simp [hpres, hrbit, hsr] at ht

end

/-! ## Every step -/

/-- Settles O54: the flags rise in the two refusals only, each of which tests `BUSY` first. -/
theorem refusalFlagsRiseByBusy : Obligations.RefusalFlagsRiseByBusy := by
  unfold Obligations.RefusalFlagsRiseByBusy
  intro s t h
  obtain ⟨hill, hrej⟩ := (step_cases h).busy_or_refusal_kept
  simp only [nextAction_busy, nextAction_ill, nextAction_rej] at hill hrej
  refine ⟨fun h₀ h₁ => hill.resolve_right fun hk => ?_, fun h₀ h₁ => hrej.resolve_right fun hk => ?_⟩
  · simp [hk h₁] at h₀
  · simp [hk h₁] at h₀

/-- Settles O55: an action that accepts no command keeps all three flags where they are set. -/
theorem refusalAndErrorFlagsFallOnlyAtAcceptance : Obligations.RefusalAndErrorFlagsFallOnlyAtAcceptance := by
  unfold Obligations.RefusalAndErrorFlagsFallOnlyAtAcceptance
  intro s t h hr hfall
  rcases (step_cases h).accepts_or_keeps hr with ⟨hb, ha, hl⟩ | ⟨_, hrej, hill, herr⟩
  · exact ⟨by simpa using hb, t.cmd, ha, hl, rfl⟩
  · simp only [nextAction_rej, nextAction_ill, nextAction_err] at hrej hill herr
    rcases hfall with ⟨h₁, h₀⟩ | ⟨h₁, h₀⟩ | ⟨h₁, h₀⟩
    · simp [hrej h₁] at h₀
    · simp [hill h₁] at h₀
    · simp [herr h₁] at h₀

/-- Settles O56: an action that accepts no command leaves `CMD`. -/
theorem cmdChangesOnlyByAcceptance : Obligations.CmdChangesOnlyByAcceptance := by
  unfold Obligations.CmdChangesOnlyByAcceptance
  intro s t h hr hc
  rcases (step_cases h).accepts_or_keeps hr with ⟨hb, ha, hl⟩ | ⟨hcmd, _⟩
  · exact ⟨by simpa using hb, hl, ha⟩
  · exact absurd (by simpa using hcmd) hc

/-- Settles O57: of the ways a tick can end only completion writes `TEMP`, and only for operation 9. -/
theorem tempChangesOnlyAtReadTempCompletion : Obligations.TempChangesOnlyAtReadTempCompletion := by
  unfold Obligations.TempChangesOnlyAtReadTempCompletion
  intro s t h hr ht
  simpa [decodedWord] using (step_cases h).temp hr (by simpa using ht)

/-- Settles O58: of the ways a tick can end only the abort writes `ERRCODE`. -/
theorem errcodeChangesOnlyByAbort : Obligations.ErrcodeChangesOnlyByAbort := by
  unfold Obligations.ErrcodeChangesOnlyByAbort
  intro s t h hr ht
  simpa using (step_cases h).errcode hr (by simpa using ht)

/-- Settles O59: apart from resets only ticks of a command in flight write results and the driver, the results at
a sample, and the host writes `BUF` alone. -/
theorem resultsChangeOnlyInTicksOfACommand : Obligations.ResultsChangeOnlyInTicksOfACommand := by
  unfold Obligations.ResultsChangeOnlyInTicksOfACommand
  intro s t h hr
  have hc := step_cases h
  refine ⟨fun ht => ?_, fun ht => by simpa using hc.results hr (by simpa using ht), fun ht => ?_⟩
  · rcases hc.tick_or_keeps hr with ⟨hb, htick, _⟩ | ⟨hpres, hrbit, hsr, hdrv, _⟩
    · exact ⟨by simpa using hb, htick⟩
    · simp [hpres, hrbit, hsr, hdrv] at ht
  · rcases hc.tick_or_keeps hr with ⟨hb, htick, _⟩ | ⟨_, _, _, _, hbuf | ⟨hb, hw⟩⟩
    · exact .inl ⟨by simpa using hb, htick⟩
    · exact absurd (by simpa using hbuf) ht
    · exact .inr ⟨by simpa using hb, hw⟩

end Sys2Proof.Machine
end

section
/-! The values after reset (10_state.md R41), and the register port: every access answers, none disturbs a
command in flight, and the bits of STATUS (20_memory.md R63 to R67, 10_state.md R22). -/

namespace Sys2Proof.Machine

/-- Settles O1: each field of the reset state is the literal of R20's last column, the buffer nine zero bytes. -/
theorem resetStateIsAllZero : Obligations.ResetStateIsAllZero := by
  unfold Obligations.ResetStateIsAllZero
  decide

/-! ## Host writes -/

theorem writeCmd_legal {v : Word} {i : Instr} (s : State) (h : decode v = some i) :
    writeCmd v s = .next (s.issue i (plan i s.buf)) := by
  rw [writeCmd, h, ← exec_eq_issue]

theorem writeCmd_illegal {v : Word} (s : State) (h : decode v = none) :
    writeCmd v s = .next (if s.busy then s.rejectBusy else s.refuseIllegal) := by
  rw [writeCmd, h]

/-- A write of `CMD` answers in every state. -/
theorem writeCmd_next (v : Word) (s : State) : ∃ t, writeCmd v s = .next t := by
  cases h : decode v with
  | some i => exact ⟨_, writeCmd_legal s h⟩
  | none => exact ⟨_, writeCmd_illegal s h⟩

/-- R196: whatever the word, a write of `CMD` is refused while `BUSY`. -/
theorem writeCmd_busy (v : Word) {s : State} (hb : s.busy = true) : writeCmd v s = .next s.rejectBusy := by
  cases h : decode v with
  | some i => rw [writeCmd_legal s h, State.issue_busy hb]
  | none => rw [writeCmd_illegal s h, if_pos hb]

theorem writeBuf_busy (j : BufIndex) (v : Word) {s : State} (hb : s.busy = true) :
    writeBuf j v s = .next s.rejectBusy := by
  rw [writeBuf, if_pos hb]

/-- A host write answers in every state. -/
theorem regWrite_next (a : Addr) (v : Word) (s : State) : ∃ t, regWrite a v s = .next t := by
  unfold regWrite
  cases portReg a with
  | cmd => exact writeCmd_next v s
  | buf j => exact ⟨_, rfl⟩
  | status | data | temp | errcode | reserved => exact ⟨s, rfl⟩

/-- R23, R64 to R67: a host write while `BUSY` is refused with `REJ` or ignored. -/
theorem regWrite_busy (a : Addr) (v : Word) {s : State} (hb : s.busy = true) :
    regWrite a v s = .next s.rejectBusy ∨ regWrite a v s = .next s := by
  unfold regWrite
  cases portReg a with
  | cmd => exact .inl (writeCmd_busy v hb)
  | buf j => exact .inl (writeBuf_busy j v hb)
  | status | data | temp | errcode | reserved => exact .inr rfl

/-- Settles O21: a write while `BUSY` is refused or ignored, and a read hands over a value. -/
theorem hostCannotDisturbACommandInFlight : Obligations.HostCannotDisturbACommandInFlight := by
  unfold Obligations.HostCannotDisturbACommandInFlight
  intro s a v rest hb
  refine ⟨fun h => ?_, fun h => ?_⟩
  · rw [step_of_pending_cons h, perform_write]
    rcases regWrite_busy a v (s := { s with pending := rest }) hb with hw | hw
    · exact ⟨true, hw, fun _ => rfl⟩
    · exact ⟨s.rej, hw, id⟩
  · rw [step_of_pending_cons h, perform_read]
    rfl

/-! ## No stop -/

/-- The only stop is that of a tick with `BUSY` = 1 and no command in `CMD` (log entry 6). -/
theorem perform_next (a : Action) {s : State} (h : s.busy = true → ∃ i, decode s.cmd = some i) :
    ∃ t, perform a s = .next t := by
  cases a with
  | tick x =>
    cases hb : s.busy with
    | false => exact ⟨_, tick_idle hb⟩
    | true =>
      obtain ⟨i, hi⟩ := h hb
      exact ⟨_, tick_busy hb hi⟩
  | write a v => exact regWrite_next a v s
  | read | reset | writeInReset => exact ⟨_, rfl⟩

/-- Settles O53: R31 (d) has a command in `CMD` while `BUSY`, so no tick stops, and no other action can. -/
theorem noStopUnderTheInvariant : Obligations.NoStopUnderTheInvariant := by
  unfold Obligations.NoStopUnderTheInvariant
  intro s h
  refine perform_next _ fun hb => ?_
  obtain ⟨i, hi, _⟩ := h.nextAction.in_flight hb
  exact ⟨i, hi⟩

/-! ## STATUS -/

/-- A bit joined on below becomes bit 0 and moves the others up by one. -/
theorem getLsbD_append_ofBool {w : Nat} (u : BitVec w) (b : Bool) (n : Nat) :
    (u ++ BitVec.ofBool b).getLsbD n = if n = 0 then b else u.getLsbD (n - 1) :=
  BitVec.getLsbD_concat u b n

/-- R22: STATUS from bit 0 up. -/
theorem statusWord_getLsbD (s : State) (n : Nat) : (statusWord s).getLsbD n =
    [s.busy, s.done, s.err, s.pres, s.rbit, s.rej, s.ill].getD n false := by
  simp only [statusWord, BitVec.getLsbD_setWidth, getLsbD_append_ofBool, BitVec.getLsbD_ofBool]
  match n with
  | 0 | 1 | 2 | 3 | 4 | 5 | 6 => simp
  | n + 7 => simp

/-- Settles O20: the bits of STATUS one by one; address 0x01 is read-only. -/
theorem statusBits : Obligations.StatusBits := by
  unfold Obligations.StatusBits
  intro s
  have hbit : ∀ n, (regRead 0x01 s).getLsbD n = _ := statusWord_getLsbD s
  refine ⟨hbit 0, hbit 1, hbit 2, hbit 3, hbit 4, hbit 5, hbit 6, fun n hn => ?_, rfl, fun _ => rfl⟩
  rw [hbit n, List.getD_eq_default _ _ hn]

end Sys2Proof.Machine
end

section
/-! The sequencer: the events of a plan by its parts, and the phases of CONVERT and READ_TEMP as ranges of `k`
(42_sensor.md R170, R171, 10_state.md R37). -/

namespace Sys2Proof.Machine

/-! ## Events by parts of a plan -/

/-- In the first part of a plan the events are that part's. -/
theorem eventAt_append_left (p q : List Slot) {o : Nat} (ho : o < planLength p) :
    eventAt (p ++ q) o = eventAt p o := by
  induction p generalizing o with
  | nil => simp at ho
  | cons sl p ih =>
    rw [planLength_cons] at ho
    rw [List.cons_append, eventAt, eventAt]
    split
    · rfl
    · exact ih (by omega)

/-- After the first part of a plan, which takes `n` ticks, the events are those of the rest. -/
theorem eventAt_append_right (p q : List Slot) {n : Nat} (hn : planLength p = n) (o : Nat) :
    eventAt (p ++ q) (n + o) = eventAt q o := by
  subst hn
  induction p with
  | nil => rw [List.nil_append, planLength_nil, Nat.zero_add]
  | cons sl p ih =>
    rw [List.cons_append, eventAt, planLength_cons, if_neg (by omega),
      show sl.length + planLength p + o - sl.length = planLength p + o by omega, ih]

/-- Parts of 488 ticks one after the other: part `n` takes the 488 ticks from `488 n`. -/
theorem eventAt_flatMap {α : Type} (f : α → List Slot) (hf : ∀ a, planLength (f a) = 488) (l : List α)
    (n : Nat) (h : n < l.length) {o : Nat} (ho : o < 488) :
    eventAt (l.flatMap f) (488 * n + o) = eventAt (f l[n]) o := by
  induction l generalizing n with
  | nil => cases h
  | cons a l ih =>
    rw [List.flatMap_cons]
    cases n with
    | zero => rw [Nat.mul_zero, Nat.zero_add, eventAt_append_left _ _ (by rw [hf]; exact ho)]; rfl
    | succ n =>
      rw [show 488 * (n + 1) + o = 488 + (488 * n + o) by omega, eventAt_append_right _ _ (hf a)]
      exact ih n (by simpa using h)

/-! ## The sequence: reset, the byte 0xCC, the second byte, the data bytes -/

/-- A plan that begins with reset and the byte 0xCC. -/
def sequencerPlan (rest : List Slot) : List Slot := [.rst] ++ (writeByteSlots 0xCC ++ rest)

theorem planConvert_eq_sequencerPlan : planConvert = sequencerPlan (writeByteSlots 0x44) := rfl

theorem planReadTemp_eq_sequencerPlan : planReadTemp =
    sequencerPlan (writeByteSlots 0xBE ++ bufOrder.flatMap fun j => readByteSlots (some j)) := rfl

section
variable (rest : List Slot)

theorem eventAt_sequencerPlan_reset {o : Nat} (ho : o < 960) : eventAt (sequencerPlan rest) o = eventAt [.rst] o :=
  eventAt_append_left _ _ ho

theorem eventAt_sequencerPlan_skip {o : Nat} (ho : o < 488) :
    eventAt (sequencerPlan rest) (960 + o) = eventAt (writeByteSlots 0xCC) o := by
  rw [sequencerPlan, eventAt_append_right [.rst] _ (n := 960) rfl, eventAt_append_left _ _ ho]

theorem eventAt_sequencerPlan_rest (o : Nat) : eventAt (sequencerPlan rest) (1448 + o) = eventAt rest o := by
  rw [sequencerPlan, show 1448 + o = 960 + (488 + o) by omega, eventAt_append_right [.rst] _ (n := 960) rfl,
    eventAt_append_right _ _ (planLength_writeByteSlots _)]

theorem eventAt_sequencerPlan_second (d : Byte) {o : Nat} (ho : o < 488) :
    eventAt (sequencerPlan (writeByteSlots d ++ rest)) (1448 + o) = eventAt (writeByteSlots d) o := by
  rw [eventAt_sequencerPlan_rest, eventAt_append_left _ _ (by rwa [planLength_writeByteSlots])]

/-- R170: what follows the byte 0xCC does not show before offset 1448. -/
theorem eventAt_sequencerPlan_congr (rest' : List Slot) {o : Nat} (ho : o < 1448) :
    eventAt (sequencerPlan rest) o = eventAt (sequencerPlan rest') o := by
  by_cases h : o < 960
  · rw [eventAt_sequencerPlan_reset rest h, eventAt_sequencerPlan_reset rest' h]
  · obtain ⟨r, rfl⟩ := Nat.exists_eq_add_of_le (Nat.le_of_not_lt h)
    rw [eventAt_sequencerPlan_skip rest (by omega), eventAt_sequencerPlan_skip rest' (by omega)]

end

/-- R171: read byte `j` after the second byte takes the 488 ticks from `1936 + 488 j`. -/
theorem eventAt_sequencerPlan_data (d : Byte) (j : BufIndex) {o : Nat} (ho : o < 488) :
    eventAt (sequencerPlan (writeByteSlots d ++ bufOrder.flatMap fun j => readByteSlots (some j)))
      (1936 + 488 * j.val + o) = eventAt (readByteSlots (some j)) o := by
  have hj : ∀ j : BufIndex, bufOrder[j.val]'(by simp [bufOrder]) = j := by decide
  rw [show 1936 + 488 * j.val + o = 1448 + (488 + (488 * j.val + o)) by omega, eventAt_sequencerPlan_rest,
    eventAt_append_right _ _ (planLength_writeByteSlots _),
    eventAt_flatMap _ (fun a => planLength_readByteSlots (some a)) _ _ (by simp [bufOrder]) ho, hj j]

/-! ## Phases -/

theorem phase_idle {s : State} (hb : s.busy = false) : phase s = .idle := by
  simp [phase, hb]

/-- The command in flight is CONVERT or READ_TEMP exactly when its operation is 8 or 9. -/
theorem opField_sequencer {v : Word} {i : Instr} (h : decode v = some i) :
    (opField v = 8 ∨ opField v = 9) ↔ (i = .convert ∨ i = .readTemp) := by
  rw [opField_of_decode h]
  cases i <;> simp [Instr.opcode]

section
variable {s : State} {i : Instr} (hb : s.busy = true) (hi : decode s.cmd = some i)
include hb hi

theorem phase_busEngine (hn : ¬ (i = .convert ∨ i = .readTemp)) : phase s = .busEngine := by
  rw [phase, if_pos hb, if_neg (mt (opField_sequencer hi).mp hn)]

/-- R37: the phase of a sequence in flight, by `k`. -/
theorem phase_sequencer (hs : i = .convert ∨ i = .readTemp) : phase s =
    if s.k.toNat < 960 then .resetPresence else if s.k.toNat < 1448 then .commandSkip
    else if s.k.toNat < 1936 then .commandSecond else .data ((s.k.toNat - 1936) / 488) := by
  rw [phase, if_pos hb, if_pos ((opField_sequencer hi).mpr hs)]

end

/-- Settles O31: the plans of both commands are sequences of parts whose lengths add up to the ranges, and the
phase of a sequence in flight is read off `k`. -/
theorem sequencerPhasesAreRangesOfPosition : Obligations.SequencerPhasesAreRangesOfPosition := by
  unfold Obligations.SequencerPhasesAreRangesOfPosition
  rw [planConvert_eq_sequencerPlan, planReadTemp_eq_sequencerPlan]
  refine ⟨fun o ho => eventAt_sequencerPlan_congr _ _ ho, fun o ho => eventAt_sequencerPlan_reset _ ho,
    fun o ho => eventAt_sequencerPlan_skip _ ho, fun o _ => eventAt_sequencerPlan_rest _ o,
    fun o ho => eventAt_sequencerPlan_second _ _ ho, fun j o ho => eventAt_sequencerPlan_data _ j ho,
    fun s hb => phase_idle hb,
    fun s i hb hi hc hr => phase_busEngine hb hi (by simp [hc, hr]), fun s i hb hi hs => ?ranges,
    fun s hb hi j o ho hk => ?data⟩
  case ranges =>
    rw [phase_sequencer hb hi hs]
    refine ⟨fun h => if_pos h, fun h₁ h₂ => ?_, fun h₁ h₂ => ?_⟩
    · rw [if_neg (by omega), if_pos h₂]
    · rw [if_neg (by omega), if_neg (by omega), if_pos h₂]
  case data =>
    rw [phase_sequencer hb hi (.inr rfl), if_neg (by omega), if_neg (by omega), if_neg (by omega)]
    congr 1
    omega

end Sys2Proof.Machine
end

section
/-! Which words the decoder accepts (30_encoding.md R94, R100), and which commands take no tick (R93). -/

namespace Sys2Proof

theorem decodeC0_of_zero (i : Instr) {arg : Byte} (h : arg = 0) : decodeC0 i arg = .command i := if_pos h

theorem decodeCB_of_zero (f : Bool → Instr) {arg : Byte} (h : arg.extractLsb' 1 7 = 0) :
    decodeCB f arg = .command (f (arg.getLsbD 0)) := if_pos h

theorem decodeCN_of_le (f : BitVec 4 → Instr) {arg : Byte} (h : arg.extractLsb' 4 4 = 0)
    (hn : (arg.extractLsb' 0 4).toNat ≤ 9) : decodeCN f arg = .command (f (arg.extractLsb' 0 4)) := by
  rw [decodeCN, if_pos h, if_pos (by rw [countOk, decide_eq_true hn])]

/-- R100: the decoder reads a command from every legal word. -/
theorem decode_of_legal {v : Word} (h : legal v = true) : ∃ i, decode v = some i := by
  simp only [legal, Bool.and_eq_true, Bool.or_eq_true, decide_eq_true_eq] at h
  obtain ⟨hz, ((⟨ho, ha⟩ | ⟨ho, ha⟩) | ho) | ⟨⟨ho, ha⟩, hn⟩⟩ := h
  all_goals simp only [decode_eq_some, decodeWord, if_pos hz]
  case inl.inl.inl => rcases ho with ho | ho | ho | ho | ho <;> rw [ho] <;> exact ⟨_, decodeC0_of_zero _ ha⟩
  case inl.inl.inr => rw [ho]; exact ⟨_, decodeCB_of_zero _ ha⟩
  case inl.inr => rw [ho]; exact ⟨_, rfl⟩
  case inr => rcases ho with ho | ho <;> rw [ho] <;> exact ⟨_, decodeCN_of_le _ ha hn⟩

/-- R101: the decoder rejects every illegal word. -/
theorem decode_eq_none_of_illegal {v : Word} (h : legal v = false) : decode v = none := by
  cases hi : decode v with
  | none => rfl
  | some i => rw [legal_of_decode hi] at h; cases h

namespace Machine

/-- Only the empty plan takes no tick (00_scope.md R7: every duration is 1 or more). -/
theorem planLength_ne_zero {p : List Slot} (h : p ≠ []) : planLength p ≠ 0 := by
  cases p with
  | nil => exact absurd rfl h
  | cons sl p =>
    have := sl.lowTicks_lt_length
    rw [planLength_cons]
    omega

/-- A count other than 0 counts byte 0. -/
theorem countedIndices_eq_cons {n : BitVec 4} (hn : n ≠ 0) : ∃ l, countedIndices n = 0 :: l := by
  obtain ⟨c, hc⟩ := Nat.exists_eq_succ_of_ne_zero fun h : n.toNat = 0 => hn (BitVec.eq_of_toNat_eq h)
  rw [countedIndices, hc]
  exact ⟨_, rfl⟩

/-- R93: of the commands only the two counted ones, with count 0, have an empty plan. -/
theorem plan_ne_nil {i : Instr} (h6 : i ≠ .writeBytes 0) (h7 : i ≠ .readBytes 0) (m : Buffer) :
    plan i m ≠ [] := by
  cases i with
  | writeBytes n =>
    obtain ⟨l, hl⟩ := countedIndices_eq_cons fun hn => h6 (congrArg _ hn)
    rw [plan, planWriteBytes, hl]
    exact List.cons_ne_nil _ _
  | readBytes n =>
    obtain ⟨l, hl⟩ := countedIndices_eq_cons fun hn => h7 (congrArg _ hn)
    rw [plan, planReadBytes, hl]
    exact List.cons_ne_nil _ _
  | reset | writeBit | readBit | writeByte | readByte | convert | readTemp => exact List.cons_ne_nil _ _

end Machine
end Sys2Proof
end

section
/-! The issue of a command (20_memory.md R64): the three outcomes of a write of `CMD`, and the state an
acceptance leaves. -/

namespace Sys2Proof.Machine

/-- R64: an accepted command that has ticks is in flight at its offset 0. -/
theorem State.accept_of_ne_zero (s : State) (v : Word) {n : Nat} (hn : n ≠ 0) :
    s.accept v n = { s with
      cmd := v, busy := true, done := false, err := false, rej := false, ill := false, k := 0 } := by
  simp [State.accept, State.flagsAccepted, hn]

/-- R64: an idle block that accepts a command without ticks completes it at once and stays idle. -/
theorem State.accept_zero {s : State} (v : Word) (hb : s.busy = false) :
    s.accept v 0 = { s with
      cmd := v, done := true, err := false, rej := false, ill := false, k := 0 } := by
  rw [hb]
  rfl

/-- An idle block accepts every well-formed command (30_encoding.md R102). -/
theorem exec_idle {s : State} {i : Instr} (hb : s.busy = false) (hw : i.wellFormed = true) :
    exec i s = .next (s.accept (encode i) (planLength (plan i s.buf))) := by
  rw [exec_eq_issue, State.issue_idle hb hw]

theorem regWrite_cmd (v : Word) (s : State) : regWrite 0x00 v s = writeCmd v s := rfl

/-- R64: an idle block accepts the word of every command. -/
theorem writeCmd_accepted {s : State} {v : Word} {i : Instr} (hb : s.busy = false) (hi : decode v = some i) :
    writeCmd v s = .next (s.accept v (planLength (plan i s.buf))) := by
  rw [writeCmd_legal s hi, State.issue_idle hb (decode_wellFormed hi), encode_of_decode hi]

/-- R64, R195: an idle block refuses an illegal word with `ILL`. -/
theorem writeCmd_refused {s : State} {v : Word} (hb : s.busy = false) (hl : legal v = false) :
    writeCmd v s = .next s.refuseIllegal := by
  rw [writeCmd_illegal s (decode_eq_none_of_illegal hl), if_neg (by rw [hb]; exact Bool.false_ne_true)]

/-- Settles O10: the busy test comes first, then legality, which is what the decoder accepts; an accepted
command without ticks is complete in the write. -/
theorem commandWriteHasThreeOutcomes : Obligations.CommandWriteHasThreeOutcomes := by
  unfold Obligations.CommandWriteHasThreeOutcomes
  intro s v
  rw [regWrite_cmd]
  refine ⟨fun hb => writeCmd_busy v hb, fun hb hl => writeCmd_refused hb hl, fun hb hl => ?accepted⟩
  case accepted =>
    obtain ⟨i, hi⟩ := decode_of_legal hl
    refine ⟨i, hi, fun hn => ?_, fun hn => ?_⟩
    · rw [writeCmd_accepted hb hi, State.accept_of_ne_zero s v hn]
    · rw [writeCmd_accepted hb hi, hn, State.accept_zero v hb]

/-- Settles O11: a well-formed command other than the two with count 0 has ticks, so it is accepted into
flight. -/
theorem idleBlockAcceptsEveryCommand : Obligations.IdleBlockAcceptsEveryCommand := by
  unfold Obligations.IdleBlockAcceptsEveryCommand
  intro s i hb hw h6 h7
  rw [exec_idle hb hw, State.accept_of_ne_zero s _ (planLength_ne_zero (plan_ne_nil h6 h7 s.buf))]

/-- Settles O12: with count 0 the plan is empty. -/
theorem zeroCountCompletesInTheWrite : Obligations.ZeroCountCompletesInTheWrite := by
  unfold Obligations.ZeroCountCompletesInTheWrite
  intro s hb
  have h6 : planLength (plan (.writeBytes 0) s.buf) = 0 := rfl
  have h7 : planLength (plan (.readBytes 0) s.buf) = 0 := rfl
  constructor
  · rw [exec_idle hb rfl, h6, State.accept_zero _ hb]
    rfl
  · rw [exec_idle hb rfl, h7, State.accept_zero _ hb]
    rfl

end Sys2Proof.Machine
end

section
/-! Writes and reads of the register port by address (20_memory.md R62, R63, R65 to R67, R70). -/

namespace Sys2Proof.Machine

/-! ## Writes -/

theorem regWrite_buf {a : Addr} {j : BufIndex} (ha : portReg a = .buf j) (v : Word) (s : State) :
    regWrite a v s = writeBuf j v s := by
  rw [regWrite, ha]

theorem writeBuf_idle (j : BufIndex) (v : Word) {s : State} (hb : s.busy = false) :
    writeBuf j v s = .next { s with buf := bufSet s.buf j (v.setWidth 8) } := by
  rw [writeBuf, hb]
  rfl

/-- R65, R67: every address but those of `CMD` and `BUF` ignores writes. -/
theorem regWrite_ignored {a : Addr} (hc : a ≠ 0x00) (hj : ∀ j : BufIndex, a.toNat ≠ 0x10 + j.val)
    (v : Word) (s : State) : regWrite a v s = .next s := by
  unfold regWrite
  cases h : portReg a with
  | cmd => exact absurd (portReg_cmd.mp h) hc
  | buf j => exact absurd (portReg_buf.mp h) (hj j)
  | status | data | temp | errcode | reserved => rfl

/-- The reserved addresses (R62, R67). -/
theorem portReg_reserved {a : Addr} : portReg a = .reserved ↔
    (0x05 ≤ a.toNat ∧ a.toNat ≤ 0x0F) ∨ (0x19 ≤ a.toNat ∧ a.toNat ≤ 0x1F) := by
  revert a
  decide

theorem ne_zero_of_toNat_pos {a : Addr} (h : 0 < a.toNat) : a ≠ 0x00 := by
  rintro rfl
  exact absurd h (by decide)

/-- Settles O16: neither address range meets those of `CMD` and `BUF`, and a reserved register has value 0. -/
theorem readOnlyAndReservedAddresses : Obligations.ReadOnlyAndReservedAddresses := by
  unfold Obligations.ReadOnlyAndReservedAddresses
  intro s a v
  refine ⟨fun h₁ h₂ => ?readOnly, fun h => ⟨?read, ?write⟩⟩
  case readOnly => exact regWrite_ignored (ne_zero_of_toNat_pos (by omega)) (by omega) v s
  case read => rw [hostRead, regRead, portReg_reserved.mpr h, portValue]
  case write => exact regWrite_ignored (ne_zero_of_toNat_pos (by omega)) (by omega) v s

/-- Settles O17: the new buffer is the old one with byte `j` set to the low byte of the word. -/
theorem bufferWriteTakesTheLowByte : Obligations.BufferWriteTakesTheLowByte := by
  unfold Obligations.BufferWriteTakesTheLowByte
  intro s a v j ha
  rw [regWrite_buf (portReg_buf.mpr ha)]
  refine ⟨fun hb => writeBuf_busy j v hb, fun hb => ⟨_, writeBuf_idle j v hb, ?byte, fun j' hj => ?others⟩⟩
  case byte => rw [bufGet_bufSet_self, BitVec.setWidth_eq_extractLsb' (by omega)]
  case others => exact bufGet_bufSet_of_ne _ _ hj.symm

/-! ## Reads -/

/-- R70: a byte zero-extended to a register. -/
theorem setWidth_byte (d : Byte) : d.setWidth 16 = 0#8 ++ d :=
  BitVec.setWidth_eq_append (by decide)

/-- Settles O18: the address picks the register, whose value is its field zero-extended. -/
theorem addressMapOfReads : Obligations.AddressMapOfReads := by
  unfold Obligations.AddressMapOfReads
  intro s
  refine ⟨rfl, rfl, setWidth_byte s.sr, rfl, setWidth_byte s.errcode, fun a j ha => ?buf⟩
  case buf => rw [regRead, portReg_buf.mpr ha, portValue, setWidth_byte]

/-- No register reads the schedule or what the host has read. -/
theorem regRead_environment (a : Addr) (s : State) (pending : List Action) (reads : List Word) :
    regRead a { s with pending := pending, hostReads := reads } = regRead a s := by
  unfold regRead
  cases portReg a <;> rfl

/-- Settles O19: a read writes only to what the host has read, which no register shows. -/
theorem hostReadChangesNothing : Obligations.HostReadChangesNothing := by
  unfold Obligations.HostReadChangesNothing
  intro s a rest h
  have hstep : step s = .next { s with pending := rest, hostReads := regRead a s :: s.hostReads } := by
    rw [step_of_pending_cons h, perform_read, hostRead, regRead_environment a s rest s.hostReads]
  refine ⟨hstep, fun t ht => ?again⟩
  case again =>
    rw [hstep] at ht
    cases ht
    exact regRead_environment a s rest _

end Sys2Proof.Machine
end

section
/-! The decoder after the encoder (spec/30_encoding.md R90 to R94, R102), and a step that brings a command word. -/

namespace Sys2Proof

/-! ## The operand forms read back -/

theorem decodeCB_setWidth (f : Bool → Instr) (b : Bool) :
    decodeCB f ((BitVec.ofBool b).setWidth 8) = .command (f b) := by
  cases b <;> rfl

/-- A count zero-extended to a byte has its upper four bits 0 and is the lower four. -/
theorem extractLsb'_setWidth_count : ∀ n : BitVec 4,
    (n.setWidth 8).extractLsb' 4 4 = 0 ∧ (n.setWidth 8).extractLsb' 0 4 = n := by decide

theorem decodeCN_setWidth (f : BitVec 4 → Instr) {n : BitVec 4} (hn : countOk n = true) :
    decodeCN f (n.setWidth 8) = .command (f n) := by
  obtain ⟨hupper, hlower⟩ := extractLsb'_setWidth_count n
  rw [decodeCN, if_pos hupper, hlower, if_pos hn]

/-- R90 to R92: the fields of the word of a command pick its row, whose form gives the operand back. -/
theorem decode_encode {i : Instr} (hw : i.wellFormed = true) : decode (encode i) = some i := by
  rw [decode_eq_some, decodeWord, if_pos (zField_encode i), opField_encode, argField_encode]
  cases i with
  | writeBit b => exact decodeCB_setWidth .writeBit b
  | writeBytes n => exact decodeCN_setWidth .writeBytes hw
  | readBytes n => exact decodeCN_setWidth .readBytes hw
  | reset | readBit | readByte | convert | readTemp => exact decodeC0_of_zero _ rfl
  | writeByte d => rfl

/-- Settles O3: the decoder reads the three fields that the encoder put together. -/
theorem decodeOfEncodeIsTheCommand : Obligations.DecodeOfEncodeIsTheCommand := by
  unfold Obligations.DecodeOfEncodeIsTheCommand
  intro i hw
  exact decode_encode hw

/-- Settles O4: a word is its three fields, and a decoded word has those of its command. -/
theorem encodeOfDecodeIsTheWord : Obligations.EncodeOfDecodeIsTheWord := by
  unfold Obligations.EncodeOfDecodeIsTheWord
  intro v i h
  exact ⟨encode_of_decode h, decode_wellFormed h⟩

/-- Settles O7: each of the ten words is the word of its command, whose decoding gives the command back. -/
theorem wordsOfTheTableDecode : Obligations.WordsOfTheTableDecode :=
  ⟨decode_encode (i := .reset) rfl, decode_encode (i := .writeBit false) rfl,
    decode_encode (i := .writeBit true) rfl, decode_encode (i := .readBit) rfl,
    decode_encode (i := .writeByte 0xCC) rfl, decode_encode (i := .readByte) rfl,
    decode_encode (i := .writeBytes 2) rfl, decode_encode (i := .readBytes 9) rfl,
    decode_encode (i := .convert) rfl, decode_encode (i := .readTemp) rfl⟩

namespace Machine

/-- Settles O8: the write of `CMD` is the scheduled action, and a word that decodes to `i` is issued as `i`. -/
theorem stepRunsTheDecodedCommand : Obligations.StepRunsTheDecodedCommand := by
  unfold Obligations.StepRunsTheDecodedCommand
  intro s v rest i hp hi
  rw [step_of_pending_cons hp, perform_write, regWrite_cmd, writeCmd_legal _ hi, exec_eq_issue]

end Machine
end Sys2Proof
end

section
/-! The legal words (spec/30_encoding.md R92, R100): by slices of the word, by match and mask, and as a list. -/

namespace Sys2Proof

/-! ## By conditions -/

/-- R100: legal words are those the decoder reads a command from. -/
theorem legal_iff_decode {v : Word} : legal v = true ↔ ∃ i, decode v = some i :=
  ⟨decode_of_legal, fun ⟨_, hi⟩ => legal_of_decode hi⟩

theorem illegal_iff_decode {v : Word} : legal v = false ↔ decode v = none := by
  rw [← Bool.not_eq_true, legal_iff_decode, ← Option.isSome_iff_exists, Option.not_isSome_iff_eq_none]

/-- `Legal` as a proposition, condition by condition (R100). -/
theorem legal_iff_fields {v : Word} : legal v = true ↔ zField v = 0 ∧
    ((opField v ∈ [1, 3, 5, 8, 9] ∧ argField v = 0) ∨
      (opField v = 2 ∧ (argField v).extractLsb' 1 7 = 0) ∨ opField v = 4 ∨
      (opField v ∈ [6, 7] ∧ (argField v).extractLsb' 4 4 = 0 ∧
        ((argField v).extractLsb' 0 4).toNat ≤ 9)) := by
  simp only [legal, Bool.and_eq_true, Bool.or_eq_true, decide_eq_true_eq, List.mem_cons, List.not_mem_nil,
    or_false, or_assoc, and_assoc]

/-- A slice of `ARG` is that slice of the word (R90). -/
theorem argField_extractLsb' (v : Word) (start len : Nat) (h : start + len ≤ 8) :
    (argField v).extractLsb' start len = v.extractLsb' start len := by
  rw [argField, BitVec.extractLsb'_extractLsb'_of_le h]

/-- Settles O5: a slice of `ARG` is one of the word, and the decoder accepts the legal words and no others. -/
theorem decoderAcceptsExactlyTheLegalWords : Obligations.DecoderAcceptsExactlyTheLegalWords := by
  unfold Obligations.DecoderAcceptsExactlyTheLegalWords
  intro v
  refine ⟨?conditions, legal_iff_decode, illegal_iff_decode⟩
  case conditions =>
    rw [legal_iff_fields, argField_extractLsb' v 1 7 (by omega), argField_extractLsb' v 4 4 (by omega),
      argField_extractLsb' v 0 4 (by omega)]
    rfl

/-! ## By match and mask -/

/-- Two words are the same exactly when their fields are (R90). -/
theorem append_fields_inj {z z' o o' : BitVec 4} {a a' : Byte} :
    (z ++ o) ++ a = (z' ++ o') ++ a' ↔ z = z' ∧ o = o' ∧ a = a' := by
  constructor
  · intro h
    refine ⟨?_, ?_, ?_⟩
    · rw [← zField_append z o a, h, zField_append]
    · rw [← opField_append z o a, h, opField_append]
    · rw [← argField_append z o a, h, argField_append]
  · rintro ⟨rfl, rfl, rfl⟩
    rfl

/-- A row of R92 whose mask covers `Z` and `OP` fixes both and leaves `ARG` to the rest of the mask. -/
theorem and_mask_iff (v : Word) (o : BitVec 4) (m : Byte) :
    v &&& ((0xF#4 ++ 0xF#4) ++ m) = (0#4 ++ o) ++ 0#8 ↔
      zField v = 0 ∧ opField v = o ∧ argField v &&& m = 0 := by
  have hv : v &&& ((0xF#4 ++ 0xF#4) ++ m) =
      ((zField v &&& 0xF#4) ++ (opField v &&& 0xF#4)) ++ (argField v &&& m) := by
    conv_lhs => rw [← word_eq_fields v]
    rw [BitVec.and_append, BitVec.and_append]
  have hones : ∀ x : BitVec 4, x &&& 0xF#4 = x := fun _ => BitVec.and_allOnes
  rw [hv, hones, hones]
  exact append_fields_inj

/-- The mask of form `CB` tests the upper seven bits. -/
theorem and_maskCB : ∀ a : Byte, a &&& 0xFE = 0 ↔ a.extractLsb' 1 7 = 0 := by decide

/-- The mask of form `CN` tests the upper four bits. -/
theorem and_maskCN : ∀ a : Byte, a &&& 0xF0 = 0 ↔ a.extractLsb' 4 4 = 0 := by decide

section
variable (v : Word) (o : BitVec 4)

theorem and_mask_C0 : v &&& 0xFFFF = (0#4 ++ o) ++ 0#8 ↔ zField v = 0 ∧ opField v = o ∧ argField v = 0 := by
  have h := and_mask_iff v o 0xFF
  rwa [show argField v &&& 0xFF = argField v from BitVec.and_allOnes] at h

theorem and_mask_CB : v &&& 0xFFFE = (0#4 ++ o) ++ 0#8 ↔
    zField v = 0 ∧ opField v = o ∧ (argField v).extractLsb' 1 7 = 0 := by
  have h := and_mask_iff v o 0xFE
  rwa [and_maskCB] at h

theorem and_mask_CN : v &&& 0xFFF0 = (0#4 ++ o) ++ 0#8 ↔
    zField v = 0 ∧ opField v = o ∧ (argField v).extractLsb' 4 4 = 0 := by
  have h := and_mask_iff v o 0xF0
  rwa [and_maskCN] at h

theorem and_mask_CD : v &&& 0xFF00 = (0#4 ++ o) ++ 0#8 ↔ zField v = 0 ∧ opField v = o := by
  have h := and_mask_iff v o 0x00
  rwa [show (argField v &&& 0x00 = 0) = True from eq_true BitVec.and_zero, and_true] at h

theorem toNat_and_count : (v &&& 0x000F).toNat = ((argField v).extractLsb' 0 4).toNat := by
  rw [argField_extractLsb' v 0 4 (by omega), BitVec.toNat_and, BitVec.extractLsb'_toNat, Nat.shiftRight_zero]
  exact Nat.and_two_pow_sub_one_eq_mod v.toNat 4

end

/-! ## As a list -/

theorem mem_allBytes (d : Byte) : d ∈ allBytes :=
  List.mem_map.mpr ⟨d.toNat, List.mem_range.mpr d.isLt, BitVec.ofNat_toNat 8 d⟩

theorem mem_counts : ∀ {n : BitVec 4}, n ∈ counts ↔ countOk n = true := by decide

/-- R92: the list holds the words of the well-formed commands and no others. -/
theorem mem_legalWords {v : Word} : v ∈ legalWords ↔ ∃ i, i.wellFormed = true ∧ encode i = v := by
  simp only [legalWords, List.mem_append, List.mem_cons, List.not_mem_nil, or_false, List.mem_map, mem_counts]
  constructor
  · rintro ((((((rfl | rfl | rfl | rfl) | ⟨d, -, rfl⟩) | rfl) | ⟨n, hn, rfl⟩) | ⟨n, hn, rfl⟩) | rfl | rfl)
    · exact ⟨.reset, rfl, encode_reset⟩
    · exact ⟨.writeBit false, rfl, encode_writeBit false⟩
    · exact ⟨.writeBit true, rfl, encode_writeBit true⟩
    · exact ⟨.readBit, rfl, encode_readBit⟩
    · exact ⟨.writeByte d, rfl, encode_writeByte d⟩
    · exact ⟨.readByte, rfl, encode_readByte⟩
    · exact ⟨.writeBytes n, hn, encode_writeBytes n⟩
    · exact ⟨.readBytes n, hn, encode_readBytes n⟩
    · exact ⟨.convert, rfl, encode_convert⟩
    · exact ⟨.readTemp, rfl, encode_readTemp⟩
  · rintro ⟨i, hw, rfl⟩
    cases i with
    | writeBit b => cases b <;> simp
    | writeByte d => simp [mem_allBytes]
    | writeBytes n => exact .inl (.inl (.inr ⟨n, hw, (encode_writeBytes n).symm⟩))
    | readBytes n => exact .inl (.inr ⟨n, hw, (encode_readBytes n).symm⟩)
    | reset | readBit | readByte | convert | readTemp => simp

/-- R92: the legal words are those of the list. -/
theorem legal_iff_mem_legalWords {v : Word} : legal v = true ↔ v ∈ legalWords := by
  rw [mem_legalWords]
  constructor
  · intro h
    obtain ⟨i, hi⟩ := decode_of_legal h
    exact ⟨i, decode_wellFormed hi, encode_of_decode hi⟩
  · rintro ⟨i, hw, rfl⟩
    exact legal_encode hw

/-- The words of the form `CD` are 256 consecutive numbers. -/
theorem map_toNat_writeByteWords :
    (allBytes.map fun d => 0x04#8 ++ d).map BitVec.toNat = List.range' 0x0400 256 := by
  rw [allBytes, List.map_map, List.map_map, List.range'_eq_map_range]
  refine List.map_congr_left fun x hx => ?_
  have hx : x < 2 ^ 8 := List.mem_range.mp hx
  rw [Function.comp_apply, Function.comp_apply, BitVec.toNat_append, BitVec.toNat_ofNat x, Nat.mod_eq_of_lt hx]
  exact (Nat.shiftLeft_add_eq_or_of_lt hx 4).symm

/-- The list in numbers: runs of consecutive words. -/
theorem map_toNat_legalWords : legalWords.map BitVec.toNat =
    [0x0100, 0x0200, 0x0201, 0x0300] ++ List.range' 0x0400 256 ++ [0x0500] ++ List.range' 0x0600 10
      ++ List.range' 0x0700 10 ++ [0x0800, 0x0900] := by
  simp only [legalWords, List.map_append, map_toNat_writeByteWords]
  rfl

/-- The list is in ascending order: each run is, and ends below the first word of the next. -/
theorem isChain_legalWords : (legalWords.map BitVec.toNat).IsChain (· < ·) := by
  have hrun : ∀ s n, (List.range' s n).IsChain (· < ·) := fun s n => List.isChain_lt_range' s n Nat.one_pos
  rw [map_toNat_legalWords]
  simp only [List.isChain_append, hrun, List.getLast?_append, List.getLast?_range', List.head?_range']
  decide

theorem nodup_legalWords : legalWords.Nodup :=
  .of_map BitVec.toNat ((List.isChain_iff_pairwise.mp isChain_legalWords).imp Nat.ne_of_lt)

theorem length_legalWords : legalWords.length = 283 := by
  simp [legalWords, allBytes, counts]

/-- Settles O6: each row of the table is a condition on the fields, the rows being told apart by `OP`; and the list
holds the words of the well-formed commands in ascending order. -/
theorem legalWordsAreThe283OfTheTable : Obligations.LegalWordsAreThe283OfTheTable := by
  unfold Obligations.LegalWordsAreThe283OfTheTable
  refine ⟨fun v => ?matchMask, fun _ => legal_iff_mem_legalWords, nodup_legalWords, length_legalWords⟩
  case matchMask =>
    have hreset : v &&& 0xFFFF = 0x0100 ↔ _ := and_mask_C0 v 1
    have hwriteBit : v &&& 0xFFFE = 0x0200 ↔ _ := and_mask_CB v 2
    have hreadBit : v &&& 0xFFFF = 0x0300 ↔ _ := and_mask_C0 v 3
    have hwriteByte : v &&& 0xFF00 = 0x0400 ↔ _ := and_mask_CD v 4
    have hreadByte : v &&& 0xFFFF = 0x0500 ↔ _ := and_mask_C0 v 5
    have hwriteBytes : v &&& 0xFFF0 = 0x0600 ↔ _ := and_mask_CN v 6
    have hreadBytes : v &&& 0xFFF0 = 0x0700 ↔ _ := and_mask_CN v 7
    have hconvert : v &&& 0xFFFF = 0x0800 ↔ _ := and_mask_C0 v 8
    have hreadTemp : v &&& 0xFFFF = 0x0900 ↔ _ := and_mask_C0 v 9
    rw [legal_iff_fields, hreset, hwriteBit, hreadBit, hwriteByte, hreadByte, hwriteBytes, hreadBytes, hconvert,
      hreadTemp, toNat_and_count]
    simp only [List.mem_cons, List.not_mem_nil, or_false, or_and_right, and_or_left, and_assoc, or_assoc]
    refine Iff.of_eq ?_
    ac_rfl

end Sys2Proof
end

section
/-! The lengths of the plans in ticks (spec/30_encoding.md R93). -/

namespace Sys2Proof.Machine

theorem planLength_planWriteBytes {n : BitVec 4} (hn : n.toNat ≤ 9) (m : Buffer) :
    planLength (planWriteBytes n m) = 488 * n.toNat := by
  rw [planWriteBytes, planLength_flatMap _ _ fun _ _ => planLength_writeByteSlots _,
    length_countedIndices (decide_eq_true hn)]

theorem planLength_planReadBytes {n : BitVec 4} (hn : n.toNat ≤ 9) :
    planLength (planReadBytes n) = 488 * n.toNat := by
  rw [planReadBytes, planLength_flatMap _ _ fun _ _ => planLength_readByteSlots _,
    length_countedIndices (decide_eq_true hn)]

/-- The reset slot and two written bytes. -/
theorem planLength_planConvert : planLength planConvert = 1936 := by
  simp [planConvert]

/-- The reset slot, two written bytes and nine read bytes. -/
theorem planLength_planReadTemp : planLength planReadTemp = 6328 := by
  have hdata : planLength (bufOrder.flatMap fun j => readByteSlots (some j)) = 488 * bufOrder.length :=
    planLength_flatMap _ _ fun _ _ => planLength_readByteSlots _
  rw [planReadTemp, planLength_append, hdata]
  simp [bufOrder]

/-- Settles O15: a plan is as long as its slots together, a byte being eight slots of 61 ticks. -/
theorem commandLengths : Obligations.CommandLengths := by
  unfold Obligations.CommandLengths
  intro m
  exact ⟨Slot.length_rst, Slot.length_w, Slot.length_r none none, planLength_writeByteSlots,
    planLength_readByteSlots none, fun _ hn => planLength_planWriteBytes hn m,
    fun _ hn => planLength_planReadBytes hn, planLength_planConvert, planLength_planReadTemp⟩

end Sys2Proof.Machine
end

section
/-! The slots of the bus (40_bus_bit.md R112, R114 to R119): what a sample writes, the table of each slot, and
the events of a plan as those of its pseudocode. -/

namespace Sys2Proof.Machine

/-! ## Samples -/

/-- `BUF` after a sample of bit `i` for byte `j`: byte `j` takes the updated `SR` with bit 7 (R115). -/
theorem State.bufGet_sampled_bit (s : State) (i : BitIndex) (j : Option BufIndex) (lvl : Level) (j' : BufIndex) :
    bufGet (s.sampled (.bit (some i) j) lvl).buf j' =
      if i = 7 ∧ j = some j' then setBit s.sr i (decide (lvl = .high)) else bufGet s.buf j' := by
  cases j with
  | none => simp
  | some j =>
    rw [State.sampled_bit_some_some]
    by_cases hi : i = 7
    · simp [hi, bufGet_bufSet]
    · simp [hi]

/-- A sample of bit `i` writes `RBIT`, bit `i` of `SR` and, by `bufGet_sampled_bit`, `BUF` (R115). -/
theorem State.sampled_bit (s : State) (i : BitIndex) (j : Option BufIndex) (lvl : Level) :
    s.sampled (.bit (some i) j) lvl = { s with
      rbit := decide (lvl = .high), sr := setBit s.sr i (decide (lvl = .high)),
      buf := (s.sampled (.bit (some i) j) lvl).buf } := rfl

/-- Settles O24: the sampled level goes to the one bit of `SR` that `setBit` replaces, and from there to the
buffer byte. -/
theorem sampleWritesByDestination : Obligations.SampleWritesByDestination := by
  unfold Obligations.SampleWritesByDestination
  intro s lvl
  refine ⟨s.sampled_presence lvl, fun j => s.sampled_bit_none j lvl, fun i j => ?bit⟩
  case bit =>
    refine ⟨_, _, s.sampled_bit i j lvl, ?same, fun i' hi => ?others, s.bufGet_sampled_bit i j lvl⟩
    case same => rw [bitOf_setBit, if_pos rfl]
    case others => rw [bitOf_setBit, if_neg hi.symm]

/-! ## The tables of the slots -/

/-- The sample of a slot lies after the low phase and within the slot (R116, R119). -/
theorem Slot.sample_within {sl : Slot} {o : Nat} {d : Dest} (h : sl.sample = some (o, d)) :
    sl.lowTicks < o ∧ o < sl.length := by
  cases sl with
  | rst => cases h; decide
  | w b => cases h
  | r i j => cases h; exact (by decide : 1 < 21 ∧ 21 < 61)

/-- The events of a slot: `L` first, `H` when the low phase ends, `S` at the sample. -/
theorem Slot.event_eq_some {sl : Slot} {o : Nat} {e : LineEvent} : sl.event o = some e ↔
    (o = 0 ∧ e = .L) ∨ (o = sl.lowTicks ∧ e = .H) ∨ ∃ d, sl.sample = some (o, d) ∧ e = .S d := by
  have hlow := sl.lowTicks_pos
  have hsample : ∀ {a d}, sl.sample = some (a, d) → sl.lowTicks < a := fun h => (sample_within h).1
  unfold Slot.event
  by_cases h0 : o = 0
  · grind
  · by_cases h1 : o = sl.lowTicks
    · grind
    · cases hs : sl.sample <;> grind

/-- A slot has no event at or after its end. -/
theorem Slot.event_of_le {sl : Slot} {o : Nat} (h : sl.length ≤ o) : sl.event o = none := by
  have hlow := sl.lowTicks_lt_length
  cases he : sl.event o with
  | none => rfl
  | some e =>
    rcases Slot.event_eq_some.mp he with ⟨h0, _⟩ | ⟨h1, _⟩ | ⟨d, hs, _⟩
    · omega
    · omega
    · have := (sample_within hs).2
      omega

theorem eventAt_singleton (sl : Slot) (o : Nat) : eventAt [sl] o = sl.event o := by
  rw [eventAt]
  split
  · rfl
  · exact (Slot.event_of_le (by omega)).symm

theorem lowAt_singleton (sl : Slot) (o : Nat) : lowAt [sl] o = decide (o < sl.lowTicks) := by
  have := sl.lowTicks_lt_length
  rw [lowAt]
  split
  · rfl
  · exact (decide_eq_false (by omega)).symm

/-- Settles O27: a plan of one slot has that slot's events, levels and length at every offset, also past its
end. -/
theorem slotTables : Obligations.SlotTables := by
  unfold Obligations.SlotTables
  refine ⟨fun o => ?_, fun o => ?_, fun o => ?_, fun i j o => ?_, fun o => ?_, fun o => ?_, fun o => ?_,
    fun i j o => ?_, Slot.length_rst, Slot.length_w true, Slot.length_w false, Slot.length_r⟩
  · rw [eventAt_singleton, Slot.event_rst]
  · exact (eventAt_singleton _ o).trans (Slot.event_w true o)
  · exact (eventAt_singleton _ o).trans (Slot.event_w false o)
  · rw [eventAt_singleton, Slot.event_r]
  all_goals exact lowAt_singleton _ o

/-! ## Plans as pseudocode (R112) -/

/-- What follows a pseudocode happens after all its waits. -/
theorem timedEvents_append (c : Nat) (l m : List Prim) :
    timedEvents c (l ++ m) = timedEvents c l ++ timedEvents (c + waitTotal l) m := by
  induction l generalizing c with
  | nil => rfl
  | cons a l ih => cases a <;> simp [timedEvents, waitTotal, ih, Nat.add_assoc]

theorem waitTotal_append (l m : List Prim) : waitTotal (l ++ m) = waitTotal l + waitTotal m := by
  induction l with
  | nil => simp [waitTotal]
  | cons a l ih => cases a <;> simp [waitTotal, ih, Nat.add_assoc]

theorem Slot.waitTotal_pseudocode (sl : Slot) : waitTotal sl.pseudocode = sl.length := by
  match sl with
  | .rst => rfl
  | .w true => rfl
  | .w false => rfl
  | .r _ _ => rfl

/-- A slot's pseudocode drives low at once, releases after the low phase and samples where the table does. -/
theorem Slot.timedEvents_pseudocode (sl : Slot) (c : Nat) : timedEvents c sl.pseudocode =
    (c, .L) :: (c + sl.lowTicks, .H) :: (sl.sample.map fun s => (c + s.1, LineEvent.S s.2)).toList := by
  match sl with
  | .rst => rfl
  | .w true => rfl
  | .w false => rfl
  | .r _ _ => rfl

theorem Slot.mem_timedEvents {sl : Slot} {c o : Nat} {e : LineEvent} :
    (o, e) ∈ timedEvents c sl.pseudocode ↔ c ≤ o ∧ sl.event (o - c) = some e := by
  rw [Slot.timedEvents_pseudocode, Slot.event_eq_some]
  cases hs : sl.sample with
  | none => simp; grind
  | some s => simp; grind

theorem pseudocode_cons (sl : Slot) (p : List Slot) : pseudocode (sl :: p) = sl.pseudocode ++ pseudocode p :=
  List.flatMap_cons

theorem waitTotal_pseudocode (p : List Slot) : waitTotal (pseudocode p) = planLength p := by
  induction p with
  | nil => rfl
  | cons sl p ih => rw [pseudocode_cons, waitTotal_append, Slot.waitTotal_pseudocode, ih, planLength_cons]

theorem timedEvents_pseudocode_cons (c : Nat) (sl : Slot) (p : List Slot) :
    timedEvents c (pseudocode (sl :: p)) =
      timedEvents c sl.pseudocode ++ timedEvents (c + sl.length) (pseudocode p) := by
  rw [pseudocode_cons, timedEvents_append, Slot.waitTotal_pseudocode]

/-- R112: the events of a plan are the primitives of its pseudocode, each at the ticks waited before it. -/
theorem mem_timedEvents_pseudocode {p : List Slot} {c o : Nat} {e : LineEvent} :
    (o, e) ∈ timedEvents c (pseudocode p) ↔ c ≤ o ∧ eventAt p (o - c) = some e := by
  induction p generalizing c with
  | nil => simp [pseudocode, timedEvents, eventAt]
  | cons sl p ih =>
    rw [timedEvents_pseudocode_cons, List.mem_append, Slot.mem_timedEvents, ih, eventAt]
    by_cases h : o - c < sl.length
    · rw [if_pos h, or_iff_left (fun hr => by omega)]
    · rw [if_neg h, Slot.event_of_le (by omega), Nat.sub_sub]
      simp
      omega

theorem Slot.nodup_offsets (sl : Slot) (c : Nat) : ((timedEvents c sl.pseudocode).map Prod.fst).Nodup := by
  have hlow := sl.lowTicks_pos
  rw [Slot.timedEvents_pseudocode]
  cases hs : sl.sample with
  | none => simp; omega
  | some s =>
    have := (sample_within hs).1
    simp
    omega

/-- The offsets of a slot lie before its end, those of the slots after it do not. -/
theorem nodup_offsets_pseudocode (p : List Slot) (c : Nat) :
    ((timedEvents c (pseudocode p)).map Prod.fst).Nodup := by
  induction p generalizing c with
  | nil => exact List.nodup_nil
  | cons sl p ih =>
    rw [timedEvents_pseudocode_cons, List.map_append, List.nodup_append]
    refine ⟨sl.nodup_offsets c, ih _, ?_⟩
    simp only [List.mem_map]
    rintro _ ⟨⟨o, e⟩, he, rfl⟩ _ ⟨⟨o', e'⟩, he', rfl⟩ (heq : o = o')
    have hend : ¬ sl.length ≤ o - c := fun h => by
      rw [Slot.mem_timedEvents, Slot.event_of_le h] at he
      cases he.2
    have hstart := (mem_timedEvents_pseudocode.mp he').1
    omega

/-- Settles O28, by induction on the slots: a slot's pseudocode waits as long as the slot takes. -/
theorem planIsItsPseudocodeInTicks : Obligations.PlanIsItsPseudocodeInTicks := by
  unfold Obligations.PlanIsItsPseudocodeInTicks
  intro p
  refine ⟨fun o e => ?events, nodup_offsets_pseudocode p 0, waitTotal_pseudocode p⟩
  case events => rw [mem_timedEvents_pseudocode, Nat.sub_zero, and_iff_right o.zero_le]

end Sys2Proof.Machine
end

section
/-! The bit commands from issue to completion (40_bus_bit.md R113, R120 to R122), an idle tick, and what any
command drives (R110). -/

namespace Sys2Proof.Machine

/-- Settles O22: an idle tick is the passing of time. -/
theorem idleTickChangesNothing : Obligations.IdleTickChangesNothing := by
  unfold Obligations.IdleTickChangesNothing
  intro s x hb
  exact tick_idle hb

/-- The state a command other than operation 9 ends in: what its samples wrote, over `afterCommand`. -/
theorem complete_accepted_of_ne_nine (s : State) {v : Word} (h9 : opField v ≠ 9) (n : Nat) (pres rbit : Bool)
    (sr : Byte) (m : Buffer) :
    State.complete { s.accept v n with
      drv := false, pres := pres, rbit := rbit, sr := sr, buf := m, time := s.time + n } =
    { s.afterCommand v n with pres := pres, rbit := rbit, sr := sr, buf := m } := by
  rw [complete_accepted, if_neg h9]
  rfl

/-- Settles O32: the one sample of RESET writes `PRES` at offset 545. -/
theorem resetDetectsPresence : Obligations.ResetDetectsPresence := by
  unfold Obligations.ResetDetectsPresence
  intro s ins hs hl hc
  obtain ⟨t, hexec, rfl, hrun⟩ :=
    exec_run (i := .reset) ins rfl (decode_encode rfl) hs Slot.length_rst (by decide) hl hc
  refine ⟨_, hexec, hrun.trans (congrArg Host.Outcome.next ?_)⟩
  exact complete_accepted_of_ne_nine s (v := 0x0100) (by decide) 960 (devAt ins 545) s.rbit s.sr s.buf

/-- Settles O33: WRITE_BIT samples nothing, and its slot drives the line low in 1 tick for a one and in 60 for a
zero. -/
theorem writeBitRuns : Obligations.WriteBitRuns := by
  unfold Obligations.WriteBitRuns
  intro s b ins hs hl hc
  have hd := decode_encode (i := .writeBit b) rfl
  have hn : planLength (plan (.writeBit b) s.buf) = 61 := Slot.length_w b
  have h9 : opField (encode (.writeBit b)) ≠ 9 := by rw [opField_encode]; exact (by decide : (2 : BitVec 4) ≠ 9)
  obtain ⟨t, hexec, rfl, hrun⟩ := exec_run ins rfl hd hs hn (by decide) hl hc
  refine ⟨_, hexec, ?run, ?trace⟩
  case run =>
    rw [hrun, ← encode_writeBit]
    exact congrArg Host.Outcome.next (complete_accepted_of_ne_nine s h9 61 s.pres s.rbit s.sr s.buf)
  case trace =>
    rw [drvTrace_accepted ins hd hn (by decide) hl hc]
    refine List.map_congr_left fun o _ => ?_
    rw [plan, planWriteBit, lowAt_singleton, Slot.lowTicks_w]

/-- The one sample of READ_BIT reads the line at offset 21, the controller having released it (R119, R122). -/
theorem planEffect_planReadBit (ins : List TickInput) (s : State) :
    planEffect (devAt ins) 0 planReadBit s = { s with drv := false, rbit := bitAt ins 21 } := by
  have hlevel : ∀ b, decide (lineLevel false b = .high) = !b := by decide
  simp only [planReadBit, planEffect, slotEffect, State.sampled_bit_none, hlevel, Nat.zero_add, bitAt]

/-- Settles O34: `RBIT` is all that READ_BIT writes over the state every command ends in. -/
theorem readBitSamplesOnce : Obligations.ReadBitSamplesOnce := by
  unfold Obligations.ReadBitSamplesOnce
  intro s ins hs hl hc
  obtain ⟨t, hexec, rfl, hrun⟩ :=
    exec_run (i := .readBit) ins rfl (decode_encode rfl) hs (Slot.length_r none none) (by decide) hl hc
  refine ⟨_, hexec, ?_⟩
  rw [hrun, plan, planEffect_planReadBit]
  exact congrArg Host.Outcome.next
    (complete_accepted_of_ne_nine s (v := 0x0300) (by decide) 61 s.pres (bitAt ins 21) s.sr s.buf)

/-- Settles O46: a command that has ticks drives what its plan has; one without has an empty trace. -/
theorem waveformIsThatOfThePlan : Obligations.WaveformIsThatOfThePlan := by
  unfold Obligations.WaveformIsThatOfThePlan
  intro s i ins hs hw hl hc
  refine ⟨_, exec_idle hs hw, ?trace⟩
  case trace =>
    by_cases h0 : planLength (plan i s.buf) = 0
    · rw [List.length_eq_zero_iff.mp (hl.trans h0), h0]
      rfl
    · exact drvTrace_accepted ins (decode_encode hw) rfl h0 hl hc

end Sys2Proof.Machine
end

section
/-! The slots of a byte on the bus (41_bus_byte.md R150, R151): every slot takes 61 ticks, bit `i` the 61 from
`61 i`. -/

namespace Sys2Proof.Machine

/-- Slots of 61 ticks: slot `n` takes the 61 ticks from `61 n`. -/
theorem eventAt_equalSlots {p : List Slot} (hp : ∀ sl ∈ p, sl.length = 61) {n r : Nat} (hn : n < p.length)
    (hr : r < 61) : eventAt p (61 * n + r) = p[n].event r := by
  induction p generalizing n with
  | nil => cases hn
  | cons sl p ih =>
    obtain ⟨hsl, hp⟩ := List.forall_mem_cons.mp hp
    rw [eventAt, hsl]
    cases n with
    | zero => rw [if_pos (by omega), Nat.mul_zero, Nat.zero_add]; rfl
    | succ n =>
      rw [if_neg (by omega), show 61 * (n + 1) + r - 61 = 61 * n + r by omega]
      exact ih hp (by simpa using hn)

/-- R71: bit 0 is the first on the wire. -/
theorem getElem_wireOrder (i : BitIndex) (h : i.val < wireOrder.length) : wireOrder[i.val] = i := by
  revert i
  decide

theorem eventAt_writeByteSlots (d : Byte) (i : BitIndex) {r : Nat} (hr : r < 61) :
    eventAt (writeByteSlots d) (61 * i.val + r) = (Slot.w (bitOf d i)).event r := by
  rw [eventAt_equalSlots (by simp [writeByteSlots]) (by simp [writeByteSlots, wireOrder]) hr]
  simp only [writeByteSlots, List.getElem_map, getElem_wireOrder]

theorem eventAt_readByteSlots (j : Option BufIndex) (i : BitIndex) {r : Nat} (hr : r < 61) :
    eventAt (readByteSlots j) (61 * i.val + r) = (Slot.r (some i) j).event r := by
  rw [eventAt_equalSlots (by simp [readByteSlots]) (by simp [readByteSlots, wireOrder]) hr]
  simp only [readByteSlots, List.getElem_map, getElem_wireOrder]

/-- Settles O29: the slots of a byte are as long as one another, and bit `i` has slot `i`. -/
theorem byteEventsBySlot : Obligations.ByteEventsBySlot := by
  unfold Obligations.ByteEventsBySlot
  intro d j i r hr
  rw [eventAt_writeByteSlots d i hr, eventAt_readByteSlots j i hr]
  exact ⟨Slot.event_w _ r, Slot.event_r _ j r⟩

/-- R119: a read slot samples for its destination at its offset 21. -/
theorem Slot.event_r_eq_sample {i : Option BitIndex} {j : Option BufIndex} {o : Nat} {d : Dest} :
    (Slot.r i j).event o = some (.S d) ↔ o = 21 ∧ d = .bit i j := by
  rw [Slot.event_r]
  by_cases h : o = 21
  · subst h
    simp [eq_comm]
  · rw [if_neg h]
    split
    · simp [h]
    · split <;> simp [h]

/-- R151: bit `i` of a read byte is sampled at offset `61 i + 21` and at no other. -/
theorem eventAt_readByteSlots_eq_sample {j j' : Option BufIndex} {i : BitIndex} {o : Nat} :
    eventAt (readByteSlots j) o = some (.S (.bit (some i) j')) ↔ o = 61 * i.val + 21 ∧ j' = j := by
  by_cases ho : 488 ≤ o
  · rw [eventAt_of_le _ (by rwa [planLength_readByteSlots])]
    exact iff_of_false nofun (by omega)
  · obtain ⟨i', r, hr, rfl⟩ : ∃ (i' : BitIndex) (r : Nat), r < 61 ∧ o = 61 * i'.val + r :=
      ⟨⟨o / 61, by omega⟩, o % 61, Nat.mod_lt o (by decide), (Nat.div_add_mod o 61).symm⟩
    rw [eventAt_readByteSlots j i' hr, Slot.event_r_eq_sample, Dest.bit.injEq, Option.some.injEq, Fin.ext_iff,
      ← and_assoc, and_congr_left_iff]
    omega

end Sys2Proof.Machine
end

section
/-! The byte commands from issue to completion (41_bus_byte.md R153 to R156, R158). -/

namespace Sys2Proof.Machine

/-! ## Commands that only write -/

theorem writeByteSlots_writes (d : Byte) : ∀ sl ∈ writeByteSlots d, ∃ b, sl = .w b := by
  simp [writeByteSlots]

/-- A command whose slots all write: it writes no register, and drives what its plan has. -/
theorem exec_run_writes {i : Instr} {s : State} {n : Nat} (ins : List TickInput) (hw : i.wellFormed = true)
    (h9 : i.opcode ≠ 9) (hs : s.busy = false) (hp : ∀ sl ∈ plan i s.buf, ∃ b, sl = .w b)
    (hn : planLength (plan i s.buf) = n) (h0 : n ≠ 0) (hl : ins.length = n) (hc : Clean (plan i s.buf) ins) :
    ∃ t, exec i s = .next t ∧ runTicks ins t = .next (s.afterCommand (encode i) n) ∧
      drvTrace ins t = (List.range n).map (lowAt (plan i s.buf)) := by
  have hd := decode_encode hw
  rw [← opField_encode] at h9
  have hnil : plan i s.buf ≠ [] := fun h => h0 (by rw [← hn, h]; rfl)
  obtain ⟨t, hexec, rfl, hrun⟩ := exec_run ins hw hd hs hn h0 hl hc
  refine ⟨_, hexec, ?run, drvTrace_accepted ins hd hn h0 hl hc⟩
  case run =>
    rw [hrun, planEffect_writes _ hp hnil]
    exact congrArg Host.Outcome.next (complete_accepted_of_ne_nine s h9 n s.pres s.rbit s.sr s.buf)

/-- Settles O35: WRITE_BYTE has written slots only, slot `i` for bit `i`. -/
theorem writeByteRuns : Obligations.WriteByteRuns := by
  unfold Obligations.WriteByteRuns
  intro s d ins hs hl hc
  obtain ⟨t, hexec, hrun, htrace⟩ := exec_run_writes (i := .writeByte d) ins rfl (by decide : (4 : BitVec 4) ≠ 9)
    hs (writeByteSlots_writes d) (planLength_writeByteSlots d) (by decide) hl hc
  rw [encode_writeByte] at hrun
  refine ⟨t, hexec, hrun, by simp [htrace], fun i r hr => ?trace⟩
  case trace =>
    have ho : 61 * i.val + r < 488 := by omega
    simp only [htrace, List.getElem?_map, List.getElem?_range ho, Option.map_some]
    exact congrArg some (lowAt_writeByteSlots d i hr)

/-- The bytes of WRITE_BYTES on the wire: `BUF[j]` takes the 488 ticks from `488 j` (R155, R72). -/
theorem lowAt_planWriteBytes {n : BitVec 4} (m : Buffer) (hn : n.toNat ≤ 9) {j : BufIndex} (hj : j.val < n.toNat)
    {o : Nat} (ho : o < 488) :
    lowAt (planWriteBytes n m) (488 * j.val + o) = lowAt (writeByteSlots (bufGet m j)) o := by
  have hlen : j.val < (countedIndices n).length := by rwa [length_countedIndices (decide_eq_true hn)]
  rw [planWriteBytes, lowAt_flatMap_writeByteSlots _ _ _ hlen ho, getElem_countedIndices n j hlen]

/-- Settles O37: WRITE_BYTES has written slots only, those of `BUF[j]` from offset `488 j`. -/
theorem writeBytesRuns : Obligations.WriteBytesRuns := by
  unfold Obligations.WriteBytesRuns
  intro s n ins hs h1 h9 hl hc
  obtain ⟨t, hexec, hrun, htrace⟩ := exec_run_writes (i := .writeBytes n) ins (decide_eq_true h9)
    (by decide : (6 : BitVec 4) ≠ 9) hs (planWriteBytes_writes n s.buf) (planLength_planWriteBytes h9 s.buf)
    (by omega) hl hc
  rw [encode_writeBytes] at hrun
  refine ⟨t, hexec, hrun, by simp [htrace], fun j i r hj hr => ?trace⟩
  case trace =>
    have ho : 488 * j.val + (61 * i.val + r) < 488 * n.toNat := by omega
    simp only [htrace, Nat.add_assoc, List.getElem?_map, List.getElem?_range ho, Option.map_some]
    exact congrArg some ((lowAt_planWriteBytes s.buf h9 hj (by omega)).trans (lowAt_writeByteSlots _ i hr))

/-! ## Commands that read -/

/-- Settles O36: of the eight samples the last is left in `RBIT` and all are in `SR`. -/
theorem readByteAssemblesEightSamples : Obligations.ReadByteAssemblesEightSamples := by
  unfold Obligations.ReadByteAssemblesEightSamples
  intro s ins hs hl hc
  obtain ⟨t, hexec, rfl, hrun⟩ := exec_run (i := .readByte) ins rfl (decode_encode rfl) hs
    (planLength_readByteSlots none) (by decide) hl hc
  refine ⟨_, hexec, ?_⟩
  rw [hrun, plan, planReadByte, planEffect_readByteSlots, Nat.zero_add]
  exact congrArg Host.Outcome.next (complete_accepted_of_ne_nine s (v := 0x0500) (by decide) 488 s.pres
    (bitAt ins 448) (byteAt ins 0) s.buf)

/-- The counted indices are those below the count. -/
theorem mem_countedIndices {n : BitVec 4} {j : BufIndex} : j ∈ countedIndices n ↔ j.val < n.toNat := by
  revert n j
  decide

theorem nodup_countedIndices (n : BitVec 4) : (countedIndices n).Nodup :=
  List.Nodup.sublist (List.take_sublist _ _) (by decide : bufOrder.Nodup)

/-- What READ_BYTES n reads: `BUF[j]` for `j` below `n`, and `SR` and `RBIT` of the last byte (R156). -/
theorem planEffect_planReadBytes (ins : List TickInput) {n : BitVec 4} (s : State) (h1 : 1 ≤ n.toNat)
    (h9 : n.toNat ≤ 9) : ∃ m,
      planEffect (devAt ins) 0 (planReadBytes n) s =
        { s with
          drv := false, rbit := bitAt ins (488 * (n.toNat - 1) + 448), sr := byteAt ins (488 * (n.toNat - 1)),
          buf := m } ∧
      ∀ j : BufIndex, bufGet m j = if j.val < n.toNat then byteAt ins (488 * j.val) else bufGet s.buf j := by
  have hlen := length_countedIndices (decide_eq_true h9)
  have hnil : countedIndices n ≠ [] := by
    rw [← List.length_pos_iff, hlen]
    exact h1
  obtain ⟨m, heffect, hothers, hread⟩ := planEffect_readBytes ins _ 0 s hnil (nodup_countedIndices n)
  simp only [Nat.zero_add, hlen] at heffect hread
  refine ⟨m, heffect, fun j => ?_⟩
  by_cases hj : j.val < n.toNat
  · rw [if_pos hj, ← hread j.val hj, getElem_countedIndices]
  · rw [if_neg hj, hothers j (mt mem_countedIndices.mp hj)]

/-- Settles O38: each byte is read into its own byte of the buffer, and operation 7 does not write `TEMP`. -/
theorem readBytesFillTheBuffer : Obligations.ReadBytesFillTheBuffer := by
  unfold Obligations.ReadBytesFillTheBuffer
  intro s n ins hs h1 h9 hl hc
  have hw : (Instr.readBytes n).wellFormed = true := decide_eq_true h9
  have hop : opField (encode (.readBytes n)) ≠ 9 := by rw [opField_encode]; exact (by decide : (7 : BitVec 4) ≠ 9)
  obtain ⟨t, hexec, rfl, hrun⟩ :=
    exec_run ins hw (decode_encode hw) hs (planLength_planReadBytes h9) (by omega) hl hc
  obtain ⟨m, heffect, hm⟩ := planEffect_planReadBytes ins (s.accept (encode (.readBytes n)) (488 * n.toNat)) h1 h9
  refine ⟨_, m, hexec, ?_, hm⟩
  rw [hrun, plan, heffect, ← encode_readBytes]
  exact congrArg Host.Outcome.next (complete_accepted_of_ne_nine s hop _ s.pres _ _ m)

/-! ## A written byte read back -/

/-- Bit `i` of a read byte is the sample of its slot `i` (R151, R152). -/
theorem bitOf_byteAt (ins : List TickInput) (base : Nat) (i : BitIndex) :
    bitOf (byteAt ins base) i = bitAt ins (base + (61 * i.val + 21)) := by
  rw [byteAt, ← setBit_eight 0]
  simp only [bitOf_setBit]
  fin_cases i <;> rfl

/-- Settles O50: at an offset from 1 to 59 the line of a write slot is low exactly for a zero, and a zero is what
a device that then pulls low gives. -/
theorem echoingDeviceReturnsTheByteWritten : Obligations.EchoingDeviceReturnsTheByteWritten := by
  unfold Obligations.EchoingDeviceReturnsTheByteWritten
  intro s b at_ wr rd hs h1 h59 hwr hrd hcw hcr hquiet
  obtain ⟨t, hwrite, hrunw, -, htrace⟩ := writeByteRuns s b wr hs hwr hcw
  obtain ⟨t', hread, hrunr⟩ := readByteAssemblesEightSamples (s.afterCommand (0x04#8 ++ b) 488) rd rfl hrd hcr
  refine ⟨t, _, t', _, hwrite, hrunw, hread, hrunr, fun hecho => byte_ext fun i => ?_⟩
  have hlow : (drvTrace wr t).getD (61 * i.val + at_) false = !bitOf b i := by
    rw [List.getD_eq_getElem?_getD, htrace i at_ (by omega), Option.getD_some]
    cases bitOf b i
    · exact decide_eq_true (show at_ < 60 by omega)
    · exact decide_eq_false (show ¬ at_ < 1 by omega)
  calc bitOf (byteAt rd 0) i
      _ = !devAt rd (61 * i.val + 21) := by rw [bitOf_byteAt, Nat.zero_add, bitAt]
      _ = bitOf b i := by rw [hecho i, hlow, hquiet i]; simp

end Sys2Proof.Machine
end

section
/-! A command cut off inside its plan: the state after the ticks so far, and the bits of `SR` sampled by then
(41_bus_byte.md R152, 60_exceptions.md R194). -/

namespace Sys2Proof.Machine

/-! ## Where a run inside a plan stands -/

section
variable {p : List Slot} {f : Nat → TickInput} {s : State}

theorem quietRun_succ (n : Nat) :
    quietRun p f (n + 1) s = quietTick p (f (quietRun p f n s).k.toNat) (quietRun p f n s) :=
  quietRun_add p f n 1 s

theorem quietRun_k (n : Nat) : (quietRun p f n s).k = s.k + BitVec.ofNat 13 n := by
  induction n with
  | zero => simp [quietRun]
  | succ n ih => rw [quietRun_succ, quietTick_k, ih]; exact ofNat_add_ofNat s.k n 1

theorem quietRun_k_toNat (hk : s.k = 0) {n : Nat} (hn : n < 8192) : (quietRun p f n s).k.toNat = n := by
  rw [quietRun_k, hk, toNat_add_ofNat (k := 0) (by simpa using hn)]
  exact Nat.zero_add n

/-- After `n + 1` ticks the driver is as the plan has it at offset `n` (40_bus_bit.md R116 to R119). -/
theorem quietRun_drv (hk : s.k = 0) (hT : planLength p ≤ 6328) {n : Nat} (hn : n < planLength p) :
    (quietRun p f (n + 1) s).drv = lowAt p n := by
  induction n with
  | zero =>
    rw [quietRun_succ, quietTick_drv, lowAt_event p hn, quietRun_k_toNat hk (by omega), eventAt_zero hn]
    rfl
  | succ n ih =>
    rw [quietRun_succ, quietTick_drv, lowAt_event p hn, quietRun_k_toNat hk (by omega), ih (by omega)]
    simp

/-- The controller has released the line where a slot samples (R116, R119). -/
theorem lowAt_of_sample {o : Nat} {d : Dest} (h : eventAt p o = some (.S d)) : lowAt p o = false := by
  induction p generalizing o with
  | nil => rfl
  | cons sl p ih =>
    rw [eventAt] at h
    rw [lowAt]
    split at h
    case isFalse hlt => rw [if_neg hlt]; exact ih h
    case isTrue hlt =>
      rw [if_pos hlt]
      rcases Slot.event_eq_some.mp h with ⟨_, he⟩ | ⟨_, he⟩ | ⟨_, hs, _⟩
      · cases he
      · cases he
      · exact decide_eq_false (Nat.not_lt.mpr (Slot.sample_within hs).1.le)

theorem quietRun_drv_of_sample (hk : s.k = 0) (hT : planLength p ≤ 6328) {o : Nat} {d : Dest}
    (h : eventAt p o = some (.S d)) : (quietRun p f o s).drv = false := by
  have ho : o < planLength p := by
    by_contra hle
    rw [eventAt_of_le p (Nat.le_of_not_lt hle)] at h
    cases h
  have hd := quietRun_drv (f := f) hk hT ho
  rw [quietRun_succ, quietTick_drv, quietRun_k_toNat hk (by omega), h, lowAt_of_sample h] at hd
  exact hd

/-! ## The bits of `SR` -/

/-- The plan samples bit `i` of a byte at an offset. -/
def SamplesBit (p : List Slot) (i : BitIndex) (o : Nat) : Prop :=
  ∃ j, eventAt p o = some (.S (.bit (some i) j))

variable {i : BitIndex}

theorem bitOf_sr_quietTick_of_sample (x : TickInput) (h : SamplesBit p i s.k.toNat) (hd : s.drv = false) :
    bitOf (quietTick p x s).sr i = !x.dev := by
  obtain ⟨j, hj⟩ := h
  simp only [quietTick, State.afterEvent, hj, State.performEvent_S]
  rw [State.sampled_bit, hd]
  simp only [bitOf_setBit, if_true, lineLevel_eq_high, Bool.false_or, Bool.decide_eq_false]

theorem bitOf_sr_quietTick_of_not_sample (x : TickInput) (h : ¬ SamplesBit p i s.k.toNat) :
    bitOf (quietTick p x s).sr i = bitOf s.sr i := by
  simp only [quietTick, State.afterEvent]
  split
  case h_2 => rfl
  case h_1 e he =>
    match e with
    | .L => rfl
    | .H => rfl
    | .S .presence => rfl
    | .S (.bit none _) => rfl
    | .S (.bit (some i') j) =>
      have hne : i' ≠ i := by
        rintro rfl
        exact h ⟨j, he⟩
      rw [State.performEvent_S, State.sampled_bit]
      simp only [bitOf_setBit, if_neg hne]

/-- A bit of `SR` stays as it is from the offset `a` on while it is not sampled. -/
theorem bitOf_sr_quietRun_kept (hk : s.k = 0) {a n : Nat} (ha : a ≤ n) (hn : n ≤ 6328)
    (h : ∀ o, a ≤ o → o < n → ¬ SamplesBit p i o) :
    bitOf (quietRun p f n s).sr i = bitOf (quietRun p f a s).sr i := by
  induction n, ha using Nat.le_induction with
  | base => rfl
  | succ n ha ih =>
    have hlast : ¬ SamplesBit p i (quietRun p f n s).k.toNat := by
      rw [quietRun_k_toNat hk (by omega)]
      exact h n ha n.lt_succ_self
    rw [quietRun_succ, bitOf_sr_quietTick_of_not_sample _ hlast]
    exact ih (by omega) fun o hao hon => h o hao (by omega)

/-- A bit of `SR` shows the level of its latest sample. -/
theorem bitOf_sr_quietRun_sampled (hk : s.k = 0) (hT : planLength p ≤ 6328) {o n : Nat} (ho : o < n)
    (hn : n ≤ 6328) (hs : SamplesBit p i o) (h : ∀ o', o < o' → o' < n → ¬ SamplesBit p i o') :
    bitOf (quietRun p f n s).sr i = !(f o).dev := by
  have hko := quietRun_k_toNat (p := p) (f := f) hk (n := o) (by omega)
  obtain ⟨j, hj⟩ := hs
  rw [bitOf_sr_quietRun_kept hk (Nat.succ_le_of_lt ho) hn h, quietRun_succ,
    bitOf_sr_quietTick_of_sample _ ⟨j, by rw [hko, hj]⟩ (quietRun_drv_of_sample hk hT hj), hko]

end

/-! ## The run of a command that is cut off -/

/-- The inputs of a run by offset; past its end, where nothing reads them, all 0. -/
def inputAt (ins : List TickInput) (o : Nat) : TickInput := ins[o]?.getD ⟨false, false, 0⟩

theorem inputAt_dev (ins : List TickInput) (o : Nat) : (inputAt ins o).dev = devAt ins o := by
  unfold inputAt devAt
  cases ins[o]? <;> rfl

/-- The issue of a command and the first ticks of its run without failure. -/
theorem exec_run_inside {i : Instr} {s : State} (ins : List TickInput) (hw : i.wellFormed = true)
    (hs : s.busy = false) (hl : ins.length < planLength (plan i s.buf)) (hc : Clean (plan i s.buf) ins) :
    ∃ t, exec i s = .next t ∧ t = s.accept (encode i) (planLength (plan i s.buf)) ∧
      runTicks ins t = .next (quietRun (plan i s.buf) (inputAt ins) ins.length t) := by
  refine ⟨_, exec_idle hs hw, rfl, ?_⟩
  have hf : InFlight i (plan i s.buf) (s.accept (encode i) (planLength (plan i s.buf))) :=
    ⟨decide_eq_true (by omega), decode_encode hw, rfl⟩
  have hk : (s.accept (encode i) (planLength (plan i s.buf))).k.toNat = 0 := rfl
  refine runTicks_inside (planLength_plan_le i s.buf) ins _ hf (by omega) (fun o x hx => ?_) fun o x hx => ?_
  · rw [hk, Nat.zero_add, inputAt, hx, Option.getD_some]
  · rw [hk, Nat.zero_add]
    exact hc o x hx

theorem samplesBit_readByteSlots {j : Option BufIndex} {i : BitIndex} {o : Nat} :
    SamplesBit (readByteSlots j) i o ↔ o = 61 * i.val + 21 := by
  simp only [SamplesBit, eventAt_readByteSlots_eq_sample, exists_and_left, exists_eq, and_true]

/-- Settles O44: bit `i` of `SR` is sampled once, at offset `61 i + 21`, and kept before and after. -/
theorem partialByteShowsTheBitsSampledSoFar : Obligations.PartialByteShowsTheBitsSampledSoFar := by
  unfold Obligations.PartialByteShowsTheBitsSampledSoFar
  intro s ins hs hl hc
  have hlen : planLength (plan .readByte s.buf) = 488 := planLength_readByteSlots none
  obtain ⟨t, hexec, rfl, hrun⟩ := exec_run_inside (i := .readByte) ins rfl hs (by omega) hc
  refine ⟨_, _, hexec, hrun, fun i => ?_⟩
  have honce : ∀ o, SamplesBit (plan .readByte s.buf) i o ↔ o = 61 * i.val + 21 := fun o =>
    samplesBit_readByteSlots (j := none)
  split
  case isTrue hsampled =>
    rw [bitOf_sr_quietRun_sampled rfl (by omega) hsampled (by omega) ((honce _).mpr rfl)
      (fun o ho _ h => by have := (honce o).mp h; omega), inputAt_dev, bitAt]
  case isFalse hnot =>
    exact bitOf_sr_quietRun_kept rfl (Nat.zero_le _) (by omega)
      fun o _ ho h => by have := (honce o).mp h; omega

end Sys2Proof.Machine
end

section
/-! Two runs that differ only in what devices do (42_sensor.md R178, 20_memory.md R77): every operation of a tick
keeps the two states alike in all that decides what the controller drives. -/

namespace Sys2Proof.Machine

/-! ## A tick by its failure (60_exceptions.md R193) -/

theorem State.tickPlan_of_failure {s : State} {p : List Slot} {x : TickInput} (he : eventAt p s.k.toNat ≠ none)
    (hx : x.lineErr = true) : s.tickPlan p x = s.raiseLineIO x.lineErrCode := by
  rcases s.tickPlan_cases p x with ⟨_, _, ht⟩ | ⟨hno, _⟩
  · exact ht
  · rw [hno he] at hx; cases hx

theorem State.tickPlan_of_no_failure {s : State} {p : List Slot} {x : TickInput}
    (hx : eventAt p s.k.toNat ≠ none → x.lineErr = false) :
    s.tickPlan p x = (s.afterEvent p x).advance (planLength p) := by
  rcases s.tickPlan_cases p x with ⟨he, hfail, _⟩ | ⟨_, ht⟩
  · rw [hx he] at hfail; cases hfail
  · exact ht

/-- `BUF` is written at a sample only (40_bus_bit.md R115). -/
theorem State.afterEvent_buf_of_no_sample {s : State} {p : List Slot} (x : TickInput)
    (h : ∀ d, eventAt p s.k.toNat ≠ some (.S d)) : (s.afterEvent p x).buf = s.buf := by
  unfold State.afterEvent
  cases he : eventAt p s.k.toNat with
  | none => rfl
  | some e =>
    cases e with
    | L => rfl
    | H => rfl
    | S d => exact absurd he (h d)

/-- Only a written sequence, operation 6, reads `BUF` for its plan (40_bus_bit.md R114). -/
theorem plan_congr_buf {i : Instr} {m m' : Buffer} (h : i.opcode = 6 → m = m') : plan i m = plan i m' := by
  cases i with
  | writeBytes n => rw [h rfl]
  | reset | writeBit | readBit | writeByte | readByte | readBytes | convert | readTemp => rfl

/-- Operation 6 samples nothing. -/
theorem plan_no_sample_of_opcode_six {i : Instr} (h : i.opcode = 6) (m : Buffer) (o : Nat) (d : Dest) :
    eventAt (plan i m) o ≠ some (.S d) := by
  cases i with
  | writeBytes n => exact eventAt_writes (planWriteBytes_writes n m) o d
  | reset | writeBit | readBit | writeByte | readByte | readBytes | convert | readTemp =>
    simp [Instr.opcode] at h

/-! ## What keeps two states alike -/

section
variable {s s' : State} (h : SameDrive s s')
include h

theorem SameDrive.tickTime : SameDrive s.tickTime s'.tickTime := { h with }

theorem SameDrive.raiseLineIO (code : Byte) : SameDrive (s.raiseLineIO code) (s'.raiseLineIO code) :=
  { h with busy := rfl, err := rfl, errcode := rfl, drv := rfl, k := rfl }

/-- `TEMP`, which completion may write, is a result. -/
theorem SameDrive.complete : SameDrive s.complete s'.complete :=
  { h with busy := rfl, done := rfl, k := rfl }

theorem SameDrive.advance (n : Nat) : SameDrive (s.advance n) (s'.advance n) := by
  by_cases hk : s.k.toNat + 1 = n
  · rw [State.advance_last hk, State.advance_last (h.k ▸ hk)]
    exact h.complete
  · rw [State.advance_inside hk, State.advance_inside (h.k ▸ hk)]
    exact { h with k := congrArg (· + 1) h.k }

/-- An event moves the driver as the plan says, whatever the devices do; where `BUF` counts there is no sample. -/
theorem SameDrive.afterEvent {p : List Slot} (x x' : TickInput)
    (hp : opField s.cmd = 6 → ∀ d, eventAt p s.k.toNat ≠ some (.S d)) :
    SameDrive (s.afterEvent p x) (s'.afterEvent p x') where
  cmd := by simpa using h.cmd
  busy := by simpa using h.busy
  done := by simpa using h.done
  err := by simpa using h.err
  errcode := by simpa using h.errcode
  drv := by rw [State.afterEvent_drv, State.afterEvent_drv, h.drv, h.k]
  k := by simpa using h.k
  buf h6 := by
    rw [State.afterEvent_cmd] at h6
    rw [State.afterEvent_buf_of_no_sample x (hp h6), State.afterEvent_buf_of_no_sample x' (h.k ▸ hp h6)]
    exact h.buf h6

theorem SameDrive.tickPlan {p : List Slot} {x x' : TickInput} (hx : SameFaults x x')
    (hp : opField s.cmd = 6 → ∀ d, eventAt p s.k.toNat ≠ some (.S d)) :
    SameDrive (s.tickPlan p x) (s'.tickPlan p x') := by
  obtain ⟨herr, hcode⟩ := hx
  by_cases hfail : eventAt p s.k.toNat ≠ none ∧ x.lineErr = true
  · obtain ⟨he, hl⟩ := hfail
    rw [State.tickPlan_of_failure he hl, State.tickPlan_of_failure (h.k ▸ he) (herr ▸ hl), hcode]
    exact h.raiseLineIO _
  · have hno : eventAt p s.k.toNat ≠ none → x.lineErr = false := fun he =>
      Bool.eq_false_iff.mpr fun hl => hfail ⟨he, hl⟩
    have hno' : eventAt p s'.k.toNat ≠ none → x'.lineErr = false := by rwa [← h.k, ← herr]
    rw [State.tickPlan_of_no_failure hno, State.tickPlan_of_no_failure hno']
    exact (h.afterEvent x x' hp).advance _

/-- One tick keeps two states alike: idle, time passes in both; busy, both run the same plan. -/
theorem SameDrive.tick {t : State} {x x' : TickInput} (hx : SameFaults x x') (ht : tick x s = .next t) :
    ∃ t', tick x' s' = .next t' ∧ SameDrive t t' := by
  cases hb : s.busy with
  | false =>
    rw [tick_idle hb] at ht
    cases ht
    exact ⟨_, tick_idle (h.busy ▸ hb), h.tickTime⟩
  | true =>
    cases hi : decode s.cmd with
    | none => simp [Machine.tick, hb, hi] at ht
    | some i =>
      have hop := opField_of_decode hi
      have hplan : plan i s.buf = plan i s'.buf := plan_congr_buf fun h6 => h.buf (hop.trans h6)
      rw [tick_busy hb hi] at ht
      cases ht
      refine ⟨_, tick_busy (h.busy ▸ hb) (h.cmd ▸ hi), ?_⟩
      rw [← hplan]
      exact (h.tickPlan hx fun h6 => plan_no_sample_of_opcode_six (hop.symm.trans h6) _ _).tickTime

end

/-- Settles O47, by induction on the ticks: each keeps the two states alike, and the driver is part of that. -/
theorem devicesCannotInfluenceTheWaveform : Obligations.DevicesCannotInfluenceTheWaveform := by
  unfold Obligations.DevicesCannotInfluenceTheWaveform
  intro s s' t ins ins' h hins hrun
  induction hins generalizing s s' with
  | nil =>
    cases hrun
    exact ⟨s', rfl, h, rfl⟩
  | @cons x x' ins ins' hx _ ih =>
    cases htick : tick x s with
    | next u =>
      obtain ⟨u', htick', hu⟩ := h.tick hx htick
      rw [runTicks, htick] at hrun
      obtain ⟨t', hrun', ht, htrace⟩ := ih u u' hu hrun
      refine ⟨t', ?_, ht, ?_⟩
      · rw [runTicks, htick']
        exact hrun'
      · simp only [drvTrace, htick, htick', owDrvLow, hu.drv, htrace]
    | fault | refused =>
      rw [runTicks, htick] at hrun
      cases hrun

end Sys2Proof.Machine
end

section
/-! The sensor commands from issue to completion (42_sensor.md R170 to R176): what their plans write, the states
they end in, and `TEMP` as a number. -/

namespace Sys2Proof.Machine

/-! ## The temperature (R174 to R176) -/

/-- R174: byte 1 is the upper one, and neither has a sign. -/
theorem toNat_decodedWord (m : Buffer) :
    (decodedWord m).toNat = 256 * (bufGet m 1).toNat + (bufGet m 0).toNat := by
  rw [decodedWord, BitVec.toNat_append, ← Nat.shiftLeft_add_eq_or_of_lt (bufGet m 0).isLt, Nat.shiftLeft_eq]
  omega

/-- R175: `TEMP` counts sixteenths. -/
theorem degrees_eq (w : Word) : degrees w = (w.toNat : Rat) / 16 := by
  norm_num [degrees, Config.tempFracBits]

/-- Settles O41: the reading is the unsigned word over 16, and a word is at most 65535. -/
theorem temperatureIsUnsignedSixteenths : Obligations.TemperatureIsUnsignedSixteenths := by
  unfold Obligations.TemperatureIsUnsignedSixteenths
  simp only [degrees_eq]
  refine ⟨toNat_decodedWord, fun w => ⟨?sixteenths, by positivity, ?upper⟩,
    (by norm_num : ((1360 : Nat) : Rat) / 16 = 85), (by norm_num : ((401 : Nat) : Rat) / 16 = 401 / 16),
    (by norm_num : ((65374 : Nat) : Rat) / 16 = 65374 / 16)⟩
  case sixteenths => ring
  case upper =>
    have hmax : (w.toNat : Rat) ≤ 65535 := by exact_mod_cast (by omega : w.toNat ≤ 65535)
    gcongr

/-! ## What the plans write (R170, R171) -/

/-- Both sequences begin with reset and the byte 0xCC, which write `PRES` alone. -/
theorem planEffect_sequencerPlan (dev : Nat → Bool) (rest : List Slot) (s : State) :
    planEffect dev 0 (sequencerPlan rest) s =
      planEffect dev 1448 rest { s with drv := false, pres := dev 545 } := by
  have hreset : planEffect dev 0 [.rst] s = { s with drv := false, pres := dev 545 } := by
    rw [planEffect, planEffect, slotEffect, Nat.zero_add]
  rw [sequencerPlan, planEffect_append, planEffect_append, hreset, planEffect_writeByteSlots,
    planLength_writeByteSlots]
  rfl

/-- Settles O39: the presence sample of the reset slot is the one sample of CONVERT. -/
theorem convertRuns : Obligations.ConvertRuns := by
  unfold Obligations.ConvertRuns
  intro s ins hs hl hc
  obtain ⟨t, hexec, rfl, hrun⟩ :=
    exec_run (i := .convert) ins rfl (decode_encode rfl) hs planLength_planConvert (by decide) hl hc
  refine ⟨_, hexec, ?_⟩
  rw [hrun, plan, planConvert_eq_sequencerPlan, planEffect_sequencerPlan, planEffect_writeByteSlots]
  exact congrArg Host.Outcome.next
    (complete_accepted_of_ne_nine s (v := 0x0800) (by decide) 1936 (devAt ins 545) s.rbit s.sr s.buf)

/-- What READ_TEMP writes before completion: `PRES`, every byte of `BUF`, and `SR` and `RBIT` of byte 8. -/
theorem planEffect_planReadTemp (ins : List TickInput) (s : State) : ∃ m,
    planEffect (devAt ins) 0 planReadTemp s =
      { s with
        drv := false, pres := devAt ins 545, rbit := bitAt ins 6288, sr := byteAt ins 5840, buf := m } ∧
    ∀ j : BufIndex, bufGet m j = byteAt ins (1936 + 488 * j.val) := by
  obtain ⟨m, heffect, -, hread⟩ := planEffect_readBytes ins bufOrder 1936
    { s with drv := false, pres := devAt ins 545 } (by decide) (by decide)
  have hj : ∀ j : BufIndex, bufOrder[j.val]'(by simp [bufOrder]) = j := by decide
  refine ⟨m, ?effect, fun j => ?byte⟩
  case effect =>
    rw [planReadTemp_eq_sequencerPlan, planEffect_sequencerPlan, planEffect_append, planEffect_writeByteSlots,
      planLength_writeByteSlots]
    exact heffect
  case byte => rw [← hread j.val (by simp [bufOrder]), hj j]

/-- Settles O40: the bytes land in `BUF` in order, and completion of operation 9 joins bytes 1 and 0. -/
theorem readTempDeliversTheTemperature : Obligations.ReadTempDeliversTheTemperature := by
  unfold Obligations.ReadTempDeliversTheTemperature
  intro s ins hs hl hc
  obtain ⟨t, hexec, rfl, hrun⟩ :=
    exec_run (i := .readTemp) ins rfl (decode_encode rfl) hs planLength_planReadTemp (by decide) hl hc
  obtain ⟨m, heffect, hm⟩ := planEffect_planReadTemp ins (s.accept (encode .readTemp) 6328)
  have htemp : decodedWord m = byteAt ins 2424 ++ byteAt ins 1936 := by
    rw [decodedWord, hm 1, hm 0]
    rfl
  refine ⟨_, m, hexec, ?run, hm⟩
  case run =>
    rw [hrun, plan, heffect, ← htemp]
    exact congrArg Host.Outcome.next
      (complete_accepted s 0x0900 6328 (devAt ins 545) (bitAt ins 6288) (byteAt ins 5840) m)

end Sys2Proof.Machine
end

section
/-! CONVERT and READ_TEMP against the Bus Engine commands they are made of (42_sensor.md R177, 30_encoding.md
R103): plans and inputs taken apart, and the runs of the commands put one after the other. -/

namespace Sys2Proof.Machine

/-! ## Inputs in two parts -/

/-- The events of a plan's parts are events of the plan. -/
theorem Clean.of_append {p q : List Slot} {a b : List TickInput} (h : Clean (p ++ q) (a ++ b))
    (hl : a.length = planLength p) : Clean p a ∧ Clean q b := by
  refine ⟨fun o x hx he => ?first, fun o x hx he => ?second⟩
  case first =>
    have ho : o < a.length := (List.getElem?_eq_some_iff.mp hx).1
    refine h o x (by rwa [List.getElem?_append_left ho]) ?_
    rwa [eventAt_append_left p q (hl ▸ ho)]
  case second =>
    refine h (a.length + o) x (by rwa [List.getElem?_append_right (by omega), Nat.add_sub_cancel_left]) ?_
    rwa [eventAt_append_right p q hl.symm]

theorem devAt_append_left {a b : List TickInput} {o : Nat} (ho : o < a.length) :
    devAt (a ++ b) o = devAt a o := by
  rw [devAt, devAt, List.getElem?_append_left ho]

theorem devAt_append_right {a b : List TickInput} {n : Nat} (hn : a.length = n) (o : Nat) :
    devAt (a ++ b) (n + o) = devAt b o := by
  rw [devAt, devAt, List.getElem?_append_right (by omega), show n + o - a.length = o by omega]

theorem bitAt_append_right {a b : List TickInput} {n : Nat} (hn : a.length = n) (o : Nat) :
    bitAt (a ++ b) (n + o) = bitAt b o := by
  rw [bitAt, bitAt, devAt_append_right hn]

theorem byteAt_append_right {a b : List TickInput} {n : Nat} (hn : a.length = n) (base : Nat) :
    byteAt (a ++ b) (n + base) = byteAt b base := by
  simp only [byteAt, Nat.add_assoc, bitAt_append_right hn]

/-! ## The run of one command -/

/-- What a plan drives, tick by tick (40_bus_bit.md R116 to R119). -/
def planTrace (p : List Slot) : List Bool := (List.range (planLength p)).map (lowAt p)

/-- R170: slots follow one another with no tick between them. -/
theorem planTrace_append (p q : List Slot) : planTrace (p ++ q) = planTrace p ++ planTrace q := by
  rw [planTrace, planLength_append, List.range_add, List.map_append, List.map_map]
  congr 1
  · exact List.map_congr_left fun o ho => lowAt_append_left p q (List.mem_range.mp ho)
  · exact List.map_congr_left fun o _ => lowAt_append_right p q o

/-- The command `i`, issued in `s`, runs through the inputs `ins`, drives what its plan has, and leaves `u`. -/
def CommandRun (i : Instr) (ins : List TickInput) (s u : State) : Prop :=
  ∃ t, exec i s = .next t ∧ runTicks ins t = .next u ∧ drvTrace ins t = planTrace (plan i s.buf)

/-- A command that runs without failure drives what its plan has (R110). -/
theorem CommandRun.of_exec {i : Instr} {ins : List TickInput} {s u : State} (hs : s.busy = false)
    (hw : i.wellFormed = true) (hl : ins.length = planLength (plan i s.buf)) (hc : Clean (plan i s.buf) ins)
    (h : ∃ t, exec i s = .next t ∧ runTicks ins t = .next u) : CommandRun i ins s u := by
  obtain ⟨t, hexec, hrun⟩ := h
  obtain ⟨t', hexec', htrace⟩ := waveformIsThatOfThePlan s i ins hs hw hl hc
  rw [hexec] at hexec'
  cases hexec'
  exact ⟨t, hexec, hrun, htrace⟩

section
variable {s : State} (hs : s.busy = false)
include hs

theorem commandRun_writeByte (d : Byte) {ins : List TickInput} (hl : ins.length = 488)
    (hc : Clean (planWriteByte d) ins) :
    CommandRun (.writeByte d) ins s (s.afterCommand (0x04#8 ++ d) 488) := by
  obtain ⟨t, hexec, hrun, -, -⟩ := writeByteRuns s d ins hs hl hc
  exact .of_exec hs rfl (hl.trans (planLength_writeByteSlots d).symm) hc ⟨t, hexec, hrun⟩

/-- READ_BYTES with the count that READ_TEMP reads. -/
theorem commandRun_readBytes_nine {ins : List TickInput} (hl : ins.length = 4392)
    (hc : Clean (planReadBytes 9) ins) : ∃ m,
    CommandRun (.readBytes 9) ins s
      { s.afterCommand 0x0709 4392 with rbit := bitAt ins 4352, sr := byteAt ins 3904, buf := m } ∧
    ∀ j : BufIndex, bufGet m j = byteAt ins (488 * j.val) := by
  have h9 : (9 : BitVec 4).toNat ≤ 9 := by decide
  obtain ⟨t, m, hexec, hrun, hm⟩ := readBytesFillTheBuffer s 9 ins hs (by decide) h9 hl hc
  refine ⟨m, .of_exec hs rfl (hl.trans (planLength_planReadBytes h9).symm) hc ⟨t, hexec, hrun⟩, fun j => ?_⟩
  exact (hm j).trans (if_pos j.isLt)

/-- RESET, WRITE_BYTE 0xCC and WRITE_BYTE `d` back to back, with which both sequences begin. -/
theorem commandRun_reset_skip_write (d : Byte) {a b c : List TickInput} (ha : a.length = 960)
    (hb : b.length = 488) (hc : c.length = 488)
    (hclean : Clean (planReset ++ planWriteByte 0xCC ++ planWriteByte d) (a ++ b ++ c)) : ∃ u₁ u₂,
    CommandRun .reset a s u₁ ∧ CommandRun (.writeByte 0xCC) b u₁ u₂ ∧
      CommandRun (.writeByte d) c u₂ { s.afterCommand (0x04#8 ++ d) 1936 with pres := devAt a 545 } := by
  obtain ⟨hcab, hcc⟩ := hclean.of_append (by rw [List.length_append, ha, hb]; rfl)
  obtain ⟨hca, hcb⟩ := hcab.of_append ha
  exact ⟨_, _, .of_exec hs rfl ha hca (resetDetectsPresence s a hs ha hca), commandRun_writeByte rfl 0xCC hb hcb,
    commandRun_writeByte rfl d hc hcc⟩

end

/-! ## The sequences -/

/-- Settles O48: the plan of CONVERT is the plans of the three commands joined, and of what each command writes only
`CMD` differs. -/
theorem convertEqualsItsBusEngineCommands : Obligations.ConvertEqualsItsBusEngineCommands := by
  unfold Obligations.ConvertEqualsItsBusEngineCommands
  intro s a b c hs ha hb hc hclean
  have hplan : planConvert = planReset ++ planWriteByte 0xCC ++ planWriteByte 0x44 := rfl
  have hl : (a ++ b ++ c).length = 1936 := by simp [ha, hb, hc]
  obtain ⟨t, hexec, hrun, htrace⟩ := CommandRun.of_exec (i := .convert) hs rfl
    (hl.trans planLength_planConvert.symm) hclean (convertRuns s _ hs hl hclean)
  obtain ⟨u₁, u₂, ⟨t₁, hexec₁, hrun₁, htrace₁⟩, ⟨t₂, hexec₂, hrun₂, htrace₂⟩, t₃, hexec₃, hrun₃, htrace₃⟩ :=
    commandRun_reset_skip_write hs 0x44 ha hb hc (hplan ▸ hclean)
  refine ⟨t, _, t₁, u₁, t₂, u₂, t₃, _, hexec, hrun, hexec₁, hrun₁, hexec₂, hrun₂, hexec₃, hrun₃, ?state, ?trace⟩
  case state =>
    rw [List.append_assoc, devAt_append_left (by omega)]
    rfl
  case trace =>
    rw [htrace, htrace₁, htrace₂, htrace₃, ← planTrace_append, ← planTrace_append]
    rfl

/-- Settles O49: the plan of READ_TEMP is the plans of the four commands joined; READ_BYTES 9 reads the same bytes, and
of what each command writes only `CMD` and `TEMP` differ. -/
theorem readTempEqualsItsBusEngineCommands : Obligations.ReadTempEqualsItsBusEngineCommands := by
  unfold Obligations.ReadTempEqualsItsBusEngineCommands
  intro s a b c d hs ha hb hc hd hclean
  have hplan : planReadTemp =
      planReset ++ planWriteByte 0xCC ++ planWriteByte 0xBE ++ planReadBytes 9 := rfl
  have hl₃ : (a ++ b ++ c).length = 1936 := by simp [ha, hb, hc]
  have hl : (a ++ b ++ c ++ d).length = 6328 := by simp [ha, hb, hc, hd]
  obtain ⟨t₀, m, hexec₀, hrun₀, hm⟩ := readTempDeliversTheTemperature s _ hs hl hclean
  obtain ⟨t, hexec, hrun, htrace⟩ := CommandRun.of_exec (i := .readTemp) hs rfl
    (hl.trans planLength_planReadTemp.symm) hclean ⟨t₀, hexec₀, hrun₀⟩
  obtain ⟨hclean₃, hclean₄⟩ := (hplan ▸ hclean).of_append hl₃
  obtain ⟨u₁, u₂, ⟨t₁, hexec₁, hrun₁, htrace₁⟩, ⟨t₂, hexec₂, hrun₂, htrace₂⟩, t₃, hexec₃, hrun₃, htrace₃⟩ :=
    commandRun_reset_skip_write hs 0xBE ha hb hc hclean₃
  obtain ⟨m', ⟨t₄, hexec₄, hrun₄, htrace₄⟩, hm'⟩ := commandRun_readBytes_nine
    (s := { s.afterCommand (0x04#8 ++ 0xBE#8) 1936 with pres := devAt a 545 }) rfl hd hclean₄
  refine ⟨t, _, t₁, u₁, t₂, u₂, t₃, _, t₄, _, hexec, hrun, hexec₁, hrun₁, hexec₂, hrun₂, hexec₃, hrun₃, hexec₄,
    hrun₄, ?state, ?trace⟩
  case state =>
    obtain rfl : m = m' := buf_ext fun j => by rw [hm, hm', byteAt_append_right hl₃]
    have hpres : devAt (a ++ b ++ c ++ d) 545 = devAt a 545 := by
      rw [List.append_assoc, List.append_assoc, devAt_append_left (by omega)]
    have hrbit : bitAt (a ++ b ++ c ++ d) 6288 = bitAt d 4352 := bitAt_append_right hl₃ 4352
    have hsr : byteAt (a ++ b ++ c ++ d) 5840 = byteAt d 3904 := byteAt_append_right hl₃ 3904
    have htemp : byteAt (a ++ b ++ c ++ d) 2424 ++ byteAt (a ++ b ++ c ++ d) 1936 = bufGet m 1 ++ bufGet m 0 := by
      rw [hm 1, hm 0]
      rfl
    rw [hpres, hrbit, hsr, htemp]
    rfl
  case trace =>
    rw [htrace, htrace₁, htrace₂, htrace₃, htrace₄, ← planTrace_append, ← planTrace_append, ← planTrace_append]
    rfl

end Sys2Proof.Machine
end

section
/-! The exceptions of the block (60_exceptions.md R191, R193, R195, R196): the two refusals, the abort, and in which
ticks the inputs count. -/

namespace Sys2Proof.Machine

/-! ## The refusals -/

/-- Settles O13: the step performs the scheduled write of `CMD`, and an idle block refuses an illegal word. -/
theorem illegalWordOnlySetsIll : Obligations.IllegalWordOnlySetsIll := by
  unfold Obligations.IllegalWordOnlySetsIll
  intro s v rest hp hb hl
  rw [step_of_pending_cons hp, perform_write, regWrite_cmd]
  exact writeCmd_refused hb hl

/-- Settles O14: `CMD` and every `BUF` register make the busy test before they look at the word. -/
theorem writeWhileBusyOnlySetsRej : Obligations.WriteWhileBusyOnlySetsRej := by
  unfold Obligations.WriteWhileBusyOnlySetsRej
  rintro s a v hb (rfl | ⟨hlo, hhi⟩)
  case inl => exact writeCmd_busy v hb
  case inr =>
    obtain ⟨j, hj⟩ : ∃ j : BufIndex, a.toNat = 0x10 + j.val := ⟨⟨a.toNat - 0x10, by omega⟩, by simp only; omega⟩
    rw [regWrite_buf (portReg_buf.mpr hj)]
    exact writeBuf_busy j v hb

/-! ## The abort and the inputs of a tick -/

/-- Settles O23: the failure test comes before the event, and what it raises is the abort. -/
theorem lineFailureAborts : Obligations.LineFailureAborts := by
  unfold Obligations.LineFailureAborts
  intro s x i hb hi he hx
  rw [tick_busy hb hi, State.tickPlan_of_failure he hx]
  rfl

/-- R77: `dev` counts at a sample only. -/
theorem State.afterEvent_congr_of_no_sample {s : State} {p : List Slot}
    (h : ∀ d, eventAt p s.k.toNat ≠ some (.S d)) (x y : TickInput) : s.afterEvent p x = s.afterEvent p y := by
  unfold State.afterEvent
  cases he : eventAt p s.k.toNat with
  | none => rfl
  | some e =>
    cases e with
    | L => rfl
    | H => rfl
    | S d => exact absurd he (h d)

/-- R191: at an offset without an event no input counts. -/
theorem State.tickPlan_congr_of_no_event {s : State} {p : List Slot} (h : eventAt p s.k.toNat = none)
    (x y : TickInput) : s.tickPlan p x = s.tickPlan p y := by
  rw [State.tickPlan_of_no_failure (absurd h), State.tickPlan_of_no_failure (absurd h),
    State.afterEvent_congr_of_no_sample (by simp [h]) x y]

/-- R77: at an offset without a sample, of two ticks that fail alike either both abort or neither does. -/
theorem State.tickPlan_congr_of_no_sample {s : State} {p : List Slot}
    (h : ∀ d, eventAt p s.k.toNat ≠ some (.S d)) {x y : TickInput} (hxy : SameFaults x y) :
    s.tickPlan p x = s.tickPlan p y := by
  obtain ⟨herr, hcode⟩ := hxy
  rcases s.tickPlan_cases p x with ⟨he, hx, ht⟩ | ⟨hx, ht⟩
  · rw [ht, State.tickPlan_of_failure he (herr ▸ hx), hcode]
  · rw [ht, State.tickPlan_of_no_failure (herr ▸ hx), State.afterEvent_congr_of_no_sample h x y]

/-- Settles O25: a busy tick reads its inputs through its plan alone, an idle one not at all. -/
theorem inputsAreObservedOnlyAtEvents : Obligations.InputsAreObservedOnlyAtEvents := by
  unfold Obligations.InputsAreObservedOnlyAtEvents
  intro s x y i hi
  cases hb : s.busy with
  | false =>
    rw [tick_idle hb, tick_idle hb]
    exact ⟨fun _ => rfl, fun _ _ => rfl⟩
  | true =>
    rw [tick_busy hb hi, tick_busy hb hi]
    exact ⟨fun h => by rw [State.tickPlan_congr_of_no_event h x y],
      fun h hxy => by rw [State.tickPlan_congr_of_no_sample h hxy]⟩

end Sys2Proof.Machine
end

section
/-! How many events a plan has (60_exceptions.md R192). -/

namespace Sys2Proof.Machine

/-- The events of a slot: `L`, `H`, and `S` where it samples (40_bus_bit.md R116 to R119). -/
def Slot.eventCount (sl : Slot) : Nat := 2 + sl.sample.toList.length

/-- The events of a plan are those of its slots. -/
def planEventCount (p : List Slot) : Nat := (p.map Slot.eventCount).sum

theorem length_timedEvents_pseudocode (c : Nat) (p : List Slot) :
    (timedEvents c (pseudocode p)).length = planEventCount p := by
  induction p generalizing c with
  | nil => rfl
  | cons sl p ih =>
    have hslot : (timedEvents c sl.pseudocode).length = sl.eventCount := by
      rw [Slot.timedEvents_pseudocode, Slot.eventCount]
      cases sl.sample <;> rfl
    rw [timedEvents_pseudocode_cons, List.length_append, hslot, ih, planEventCount, planEventCount, List.map_cons,
      List.sum_cons]

/-- Two events for each bit written. -/
theorem planEventCount_writeByteSlots (d : Byte) : planEventCount (writeByteSlots d) = 16 := rfl

/-- Three events for each bit read. -/
theorem planEventCount_readByteSlots (j : Option BufIndex) : planEventCount (readByteSlots j) = 24 := rfl

theorem planEventCount_append (p q : List Slot) : planEventCount (p ++ q) = planEventCount p + planEventCount q := by
  simp only [planEventCount, List.map_append, List.sum_append]

/-- Bytes with `c` events each. -/
theorem planEventCount_flatMap {α : Type} (l : List α) {f : α → List Slot} {c : Nat}
    (h : ∀ a, planEventCount (f a) = c) : planEventCount (l.flatMap f) = c * l.length := by
  induction l with
  | nil => rfl
  | cons a l ih => rw [List.flatMap_cons, planEventCount_append, h, ih, List.length_cons, Nat.mul_succ, Nat.add_comm]

/-- Settles O30: 2 events for a bit written, 3 for a bit read or a reset, and 8 bits to a byte. -/
theorem eventCounts : Obligations.EventCounts := by
  unfold Obligations.EventCounts
  intro m
  simp only [length_timedEvents_pseudocode]
  refine ⟨rfl, fun b => rfl, rfl, fun d => rfl, rfl, fun n hn => ?written, fun n hn => ?read, rfl, rfl⟩
  case written =>
    rw [plan, planWriteBytes, planEventCount_flatMap _ fun j => planEventCount_writeByteSlots (bufGet m j),
      length_countedIndices (decide_eq_true hn)]
  case read =>
    rw [plan, planReadBytes, planEventCount_flatMap _ fun j => planEventCount_readByteSlots (some j),
      length_countedIndices (decide_eq_true hn)]

end Sys2Proof.Machine
end

section
/-! Results of a run cut off inside its plan: what the run leaves alone, and that a result shows its latest sample
(60_exceptions.md R194). -/

namespace Sys2Proof.Machine

/-! ## What a run inside a plan leaves alone -/

/-- Every event of a plan lies before its end. -/
theorem lt_planLength_of_eventAt {p : List Slot} {o : Nat} (h : eventAt p o ≠ none) : o < planLength p := by
  by_contra hle
  exact h (eventAt_of_le p (Nat.le_of_not_lt hle))

section
variable {p : List Slot} {f : Nat → TickInput} {s : State}

theorem InFlight.quietRun {i : Instr} (h : InFlight i p s) (n : Nat) : InFlight i p (quietRun p f n s) := by
  induction n with
  | zero => exact h
  | succ n ih => rw [quietRun_succ]; exact ih.quietTick _

/-- Ticks inside a plan write results, the driver and the clocks, and nothing else. -/
theorem quietRun_frame (p : List Slot) (f : Nat → TickInput) (n : Nat) (s : State) : ∃ pres rbit sr buf drv k,
    quietRun p f n s =
      { s with pres := pres, rbit := rbit, sr := sr, buf := buf, drv := drv, k := k, time := s.time + n } := by
  induction n with
  | zero => exact ⟨_, _, _, _, _, _, rfl⟩
  | succ n ih =>
    obtain ⟨_, _, _, _, _, _, hrun⟩ := ih
    obtain ⟨_, _, _, _, _, hevent⟩ := (quietRun p f n s).afterEvent_frame p (f (quietRun p f n s).k.toNat)
    rw [quietRun_succ, quietTick, hevent, hrun]
    exact ⟨_, _, _, _, _, _, rfl⟩

/-! ## A result and the samples that write it -/

/-- Of all that happens in a tick only a sample with a destination in `dests` writes `result`; the driver, `k` and
the time do not count (40_bus_bit.md R115). -/
structure WrittenBySamples {α : Type} (result : State → α) (dests : Dest → Prop) : Prop where
  clocks : ∀ s drv k time, result { s with drv := drv, k := k, time := time } = result s
  samples : ∀ s d lvl, ¬ dests d → result (s.sampled d lvl) = result s

section
variable {α : Type} {result : State → α} {dests : Dest → Prop} (hr : WrittenBySamples result dests)
include hr

theorem WrittenBySamples.quietTick (x : TickInput) (h : ∀ d, dests d → eventAt p s.k.toNat ≠ some (.S d)) :
    result (quietTick p x s) = result s := by
  have hevent : result (s.afterEvent p x) = result s := by
    unfold State.afterEvent
    cases he : eventAt p s.k.toNat with
    | none => rfl
    | some e =>
      cases e with
      | L => exact hr.clocks s true s.k s.time
      | H => exact hr.clocks s false s.k s.time
      | S d => exact hr.samples s d _ fun hd => h d hd he
  rw [← hevent]
  exact hr.clocks (s.afterEvent p x) _ _ _

/-- A result stays as it is from the offset `a` on while it is not sampled. -/
theorem WrittenBySamples.quietRun_kept (hk : s.k = 0) {a n : Nat} (ha : a ≤ n) (hn : n ≤ 6328)
    (h : ∀ o, a ≤ o → o < n → ∀ d, dests d → eventAt p o ≠ some (.S d)) :
    result (quietRun p f n s) = result (quietRun p f a s) := by
  induction n, ha using Nat.le_induction with
  | base => rfl
  | succ n ha ih =>
    rw [quietRun_succ, hr.quietTick _ (by rw [quietRun_k_toNat hk (by omega)]; exact h n ha n.lt_succ_self)]
    exact ih (by omega) fun o hao hon => h o hao (by omega)

end

/-- The tick of a sample: the controller has released the line, so `dev` decides its level. -/
theorem quietRun_succ_of_sample (hk : s.k = 0) (hT : planLength p ≤ 6328) {o : Nat} {d : Dest} (ho : o < 6328)
    (h : eventAt p o = some (.S d)) :
    quietRun p f (o + 1) s =
      { (quietRun p f o s).sampled d (lineLevel false (f o).dev) with
        k := (quietRun p f o s).k + 1, time := (quietRun p f o s).time + 1 } := by
  have hko := quietRun_k_toNat (p := p) (f := f) hk (n := o) (by omega)
  have hd := quietRun_drv_of_sample (f := f) hk hT h
  rw [quietRun_succ, quietTick, State.afterEvent]
  simp only [hko, h, State.performEvent_S, hd]

end

/-! ## `PRES`, `RBIT` and the bytes of `BUF` -/

theorem writtenBySamples_pres : WrittenBySamples State.pres (· = .presence) where
  clocks _ _ _ _ := rfl
  samples s d lvl hd := by
    cases d with
    | presence => exact absurd rfl hd
    | bit i j => cases i <;> rfl

theorem writtenBySamples_rbit : WrittenBySamples State.rbit (fun d => ∃ i j, d = .bit i j) where
  clocks _ _ _ _ := rfl
  samples s d lvl hd := by
    cases d with
    | presence => rfl
    | bit i j => exact absurd ⟨i, j, rfl⟩ hd

/-- Byte `j` of the buffer is written with bit 7 of a byte read into it. -/
theorem writtenBySamples_bufGet (j : BufIndex) :
    WrittenBySamples (fun s => bufGet s.buf j) (· = .bit (some 7) (some j)) where
  clocks _ _ _ _ := rfl
  samples s d lvl hd := by
    match d with
    | .presence => rfl
    | .bit none _ => rfl
    | .bit (some i) j' =>
      refine (s.bufGet_sampled_bit i j' lvl j).trans (if_neg ?_)
      rintro ⟨rfl, rfl⟩
      exact hd rfl

theorem State.sampled_bit_rbit (s : State) (i : Option BitIndex) (j : Option BufIndex) (lvl : Level) :
    (s.sampled (.bit i j) lvl).rbit = decide (lvl = .high) := by
  cases i <;> rfl

section
variable {p : List Slot} {s : State} {o n : Nat} (ins : List TickInput) (hk : s.k = 0) (hT : planLength p ≤ 6328)
  (ho : o < n) (hn : n ≤ 6328)
include hk hT ho hn

/-- `PRES` shows the latest presence sample (10_state.md R26). -/
theorem quietRun_pres_sampled (h : eventAt p o = some (.S .presence))
    (hlast : ∀ o', o < o' → o' < n → eventAt p o' ≠ some (.S .presence)) :
    (quietRun p (inputAt ins) n s).pres = devAt ins o := by
  rw [writtenBySamples_pres.quietRun_kept hk (Nat.succ_le_of_lt ho) hn
    (by rintro o' h₁ h₂ _ rfl; exact hlast o' h₁ h₂), quietRun_succ_of_sample hk hT (by omega) h,
    State.sampled_presence, inputAt_dev]
  simp

/-- `RBIT` shows the latest bit sampled (10_state.md R27). -/
theorem quietRun_rbit_sampled {i : Option BitIndex} {j : Option BufIndex} (h : eventAt p o = some (.S (.bit i j)))
    (hlast : ∀ o' i j, o < o' → o' < n → eventAt p o' ≠ some (.S (.bit i j))) :
    (quietRun p (inputAt ins) n s).rbit = bitAt ins o := by
  rw [writtenBySamples_rbit.quietRun_kept hk (Nat.succ_le_of_lt ho) hn
    (by rintro o' h₁ h₂ _ ⟨i, j, rfl⟩; exact hlast o' i j h₁ h₂), quietRun_succ_of_sample hk hT (by omega) h,
    State.sampled_bit_rbit, inputAt_dev, bitAt]
  simp

/-- Byte `j` of `BUF` is what `SR` was after the latest bit 7 read for it (10_state.md R34). -/
theorem quietRun_bufGet_sampled {j : BufIndex} (h : eventAt p o = some (.S (.bit (some 7) (some j))))
    (hlast : ∀ o', o < o' → o' < n → eventAt p o' ≠ some (.S (.bit (some 7) (some j)))) :
    bufGet (quietRun p (inputAt ins) n s).buf j = (quietRun p (inputAt ins) (o + 1) s).sr := by
  rw [(writtenBySamples_bufGet j).quietRun_kept hk (Nat.succ_le_of_lt ho) hn
    (by rintro o' h₁ h₂ _ rfl; exact hlast o' h₁ h₂), quietRun_succ_of_sample hk hT (by omega) h]
  exact (State.bufGet_sampled_bit _ 7 (some j) _ j).trans (if_pos ⟨rfl, rfl⟩)

end

/-! ## The abort -/

/-- Settles O43: the failing tick finds the command in flight at the offset of the ticks passed, and aborts it; no
tick before it touched `CMD`, `TEMP` or a flag of acceptance. -/
theorem abortIsPreciseToTheEvent : Obligations.AbortIsPreciseToTheEvent := by
  unfold Obligations.AbortIsPreciseToTheEvent
  intro s i ins x hs hw hc he hx
  have hl := lt_planLength_of_eventAt he
  have hT := planLength_plan_le i s.buf
  obtain ⟨t, hexec, ht, hrun⟩ := exec_run_inside ins hw hs hl hc
  have hk0 : t.k = 0 := by rw [ht]; rfl
  have hflight : InFlight i (plan i s.buf) t := by
    rw [ht]
    exact ⟨decide_eq_true (by omega), decode_encode hw, rfl⟩
  have hu := hflight.quietRun (f := inputAt ins) ins.length
  have hku := quietRun_k_toNat (p := plan i s.buf) (f := inputAt ins) hk0 (n := ins.length) (by omega)
  obtain ⟨_, _, _, _, _, _, hframe⟩ := quietRun_frame (plan i s.buf) (inputAt ins) ins.length t
  refine ⟨t, _, _, hexec, hrun, lineFailureAborts _ x i hu.busy hu.cmd (by rw [hu.plan, hku]; exact he) hx, rfl, ?_⟩
  rw [hframe, ht]
  exact ⟨rfl, rfl, decide_eq_false (by omega), rfl, rfl, rfl⟩

end Sys2Proof.Machine
end

section
/-! READ_TEMP cut off inside its sequence (42_sensor.md R171, 60_exceptions.md R194). -/

namespace Sys2Proof.Machine

/-! ## The samples of the sequence -/

theorem Slot.event_eq_sample {sl : Slot} {o : Nat} {d : Dest} :
    sl.event o = some (.S d) ↔ sl.sample = some (o, d) := by
  simp [Slot.event_eq_some]

/-- A written byte samples nothing. -/
theorem eventAt_writeByteSlots_ne_sample (b : Byte) (o : Nat) (d : Dest) :
    eventAt (writeByteSlots b) o ≠ some (.S d) :=
  eventAt_writes (writeByteSlots_writes b) o d

/-- R151: a read byte samples its eight bits and nothing else. -/
theorem eventAt_readByteSlots_eq_some_sample {j : Option BufIndex} {o : Nat} {d : Dest} :
    eventAt (readByteSlots j) o = some (.S d) ↔ ∃ i : BitIndex, o = 61 * i.val + 21 ∧ d = .bit (some i) j := by
  refine ⟨fun h => ?_, ?_⟩
  · have ho := lt_planLength_of_eventAt (by rw [h]; exact Option.some_ne_none _)
    rw [planLength_readByteSlots] at ho
    obtain ⟨i, r, hr, rfl⟩ : ∃ (i : BitIndex) (r : Nat), r < 61 ∧ o = 61 * i.val + r :=
      ⟨⟨o / 61, by omega⟩, o % 61, Nat.mod_lt o (by decide), (Nat.div_add_mod o 61).symm⟩
    rw [eventAt_readByteSlots j i hr, Slot.event_r_eq_sample] at h
    exact ⟨i, by rw [h.1], h.2⟩
  · rintro ⟨i, rfl, rfl⟩
    exact eventAt_readByteSlots_eq_sample.mpr ⟨rfl, rfl⟩

/-- R171: READ_TEMP samples presence, and then each bit of each byte read; nothing else. -/
theorem eventAt_planReadTemp_eq_sample {o : Nat} {d : Dest} : eventAt planReadTemp o = some (.S d) ↔
    (o = 545 ∧ d = .presence) ∨
      ∃ (j : BufIndex) (i : BitIndex), o = 1957 + 488 * j.val + 61 * i.val ∧ d = .bit (some i) (some j) := by
  refine ⟨fun h => ?_, ?_⟩
  · have ho := lt_planLength_of_eventAt (by rw [h]; exact Option.some_ne_none _)
    rw [planLength_planReadTemp] at ho
    rw [planReadTemp_eq_sequencerPlan] at h
    by_cases hreset : o < 960
    · rw [eventAt_sequencerPlan_reset _ hreset, eventAt_singleton] at h
      cases Slot.event_eq_sample.mp h
      exact .inl ⟨rfl, rfl⟩
    by_cases hskip : o < 1448
    · obtain ⟨r, rfl⟩ := Nat.exists_eq_add_of_le (Nat.le_of_not_lt hreset)
      rw [eventAt_sequencerPlan_skip _ (by omega)] at h
      exact absurd h (eventAt_writeByteSlots_ne_sample _ _ _)
    by_cases hsecond : o < 1936
    · obtain ⟨r, rfl⟩ := Nat.exists_eq_add_of_le (Nat.le_of_not_lt hskip)
      rw [eventAt_sequencerPlan_second _ _ (by omega)] at h
      exact absurd h (eventAt_writeByteSlots_ne_sample _ _ _)
    · obtain ⟨j, r, hr, rfl⟩ : ∃ (j : BufIndex) (r : Nat), r < 488 ∧ o = 1936 + 488 * j.val + r :=
        ⟨⟨(o - 1936) / 488, by omega⟩, (o - 1936) % 488, Nat.mod_lt _ (by decide), by simp only; omega⟩
      rw [eventAt_sequencerPlan_data _ j hr] at h
      obtain ⟨i, hi, hd⟩ := eventAt_readByteSlots_eq_some_sample.mp h
      exact .inr ⟨j, i, by omega, hd⟩
  · rw [planReadTemp_eq_sequencerPlan]
    rintro (⟨rfl, rfl⟩ | ⟨j, i, rfl, rfl⟩)
    · rw [eventAt_sequencerPlan_reset _ (by decide), eventAt_singleton]
      exact Slot.event_eq_sample.mpr rfl
    · rw [show 1957 + 488 * j.val + 61 * i.val = 1936 + 488 * j.val + (61 * i.val + 21) by omega,
        eventAt_sequencerPlan_data _ j (by omega)]
      exact eventAt_readByteSlots_eq_some_sample.mpr ⟨i, rfl, rfl⟩

theorem eventAt_planReadTemp_eq_presence {o : Nat} :
    eventAt planReadTemp o = some (.S .presence) ↔ o = 545 := by
  simp [eventAt_planReadTemp_eq_sample]

theorem eventAt_planReadTemp_eq_bit {o : Nat} {i : BitIndex} {j : BufIndex} :
    eventAt planReadTemp o = some (.S (.bit (some i) (some j))) ↔ o = 1957 + 488 * j.val + 61 * i.val := by
  simp [eventAt_planReadTemp_eq_sample]

/-- In wire order: the samples of bits are 61 ticks apart. -/
theorem exists_of_eventAt_planReadTemp_bit {o : Nat} {i : Option BitIndex} {j : Option BufIndex}
    (h : eventAt planReadTemp o = some (.S (.bit i j))) : ∃ m, o = 1957 + 61 * m := by
  rcases eventAt_planReadTemp_eq_sample.mp h with ⟨_, hd⟩ | ⟨j, i, ho, _⟩
  · cases hd
  · exact ⟨8 * j.val + i.val, by omega⟩

theorem samplesBit_planReadTemp {i : BitIndex} {o : Nat} :
    SamplesBit planReadTemp i o ↔ ∃ j : BufIndex, o = 1957 + 488 * j.val + 61 * i.val := by
  simp [SamplesBit, eventAt_planReadTemp_eq_sample]

/-! ## The results after `n` ticks -/

section
variable {s : State} (ins : List TickInput) (hk : s.k = 0) {n : Nat} (hn : n ≤ 6328)
include hk hn

theorem readTemp_pres_partial : (quietRun planReadTemp (inputAt ins) n s).pres =
    if 545 < n then devAt ins 545 else s.pres := by
  split
  case isTrue h =>
    exact quietRun_pres_sampled ins hk planLength_planReadTemp.le h hn (eventAt_planReadTemp_eq_presence.mpr rfl)
      fun o' _ _ he => by have := eventAt_planReadTemp_eq_presence.mp he; omega
  case isFalse h =>
    refine writtenBySamples_pres.quietRun_kept hk (Nat.zero_le n) hn ?_
    rintro o - ho _ rfl he
    have := eventAt_planReadTemp_eq_presence.mp he
    omega

theorem readTemp_rbit_old (h : n ≤ 1957) : (quietRun planReadTemp (inputAt ins) n s).rbit = s.rbit := by
  refine writtenBySamples_rbit.quietRun_kept hk (Nat.zero_le n) hn ?_
  rintro o - ho _ ⟨i, j, rfl⟩ he
  obtain ⟨m, hm⟩ := exists_of_eventAt_planReadTemp_bit he
  omega

/-- Sample `m` is of bit `m % 8` of byte `m / 8`. -/
theorem readTemp_rbit_sampled {m : Nat} (hm : m < 72) (h : 1957 + 61 * m < n) (hlast : n ≤ 1957 + 61 * (m + 1)) :
    (quietRun planReadTemp (inputAt ins) n s).rbit = bitAt ins (1957 + 61 * m) := by
  have hsample : eventAt planReadTemp (1957 + 61 * m) =
      some (.S (.bit (some ⟨m % 8, by omega⟩) (some ⟨m / 8, by omega⟩))) :=
    eventAt_planReadTemp_eq_bit.mpr (by simp only; omega)
  refine quietRun_rbit_sampled ins hk planLength_planReadTemp.le h hn hsample fun o' _ _ h₁ h₂ he => ?_
  obtain ⟨m', hm'⟩ := exists_of_eventAt_planReadTemp_bit he
  omega

theorem readTemp_sr_old {i : BitIndex} (h : n ≤ 1957 + 61 * i.val) :
    bitOf (quietRun planReadTemp (inputAt ins) n s).sr i = bitOf s.sr i := by
  refine bitOf_sr_quietRun_kept hk (Nat.zero_le n) hn fun o _ ho hs => ?_
  obtain ⟨j, hj⟩ := samplesBit_planReadTemp.mp hs
  omega

theorem readTemp_sr_sampled {i : BitIndex} {j : Nat} (hj : j < 9) (h : 1957 + 488 * j + 61 * i.val < n)
    (hlast : n ≤ 1957 + 488 * (j + 1) + 61 * i.val) :
    bitOf (quietRun planReadTemp (inputAt ins) n s).sr i = bitAt ins (1957 + 488 * j + 61 * i.val) := by
  rw [bitOf_sr_quietRun_sampled hk planLength_planReadTemp.le h hn (samplesBit_planReadTemp.mpr ⟨⟨j, hj⟩, rfl⟩),
    inputAt_dev, bitAt]
  intro o' h₁ h₂ hs
  obtain ⟨j', hj'⟩ := samplesBit_planReadTemp.mp hs
  omega

/-- Byte `j` takes over `SR` with its bit 7, when all eight bits of `SR` are those of byte `j`. -/
theorem readTemp_buf_partial (j : BufIndex) : bufGet (quietRun planReadTemp (inputAt ins) n s).buf j =
    if 2384 + 488 * j.val < n then byteAt ins (1936 + 488 * j.val) else bufGet s.buf j := by
  have hbit7 : ∀ o, eventAt planReadTemp o = some (.S (.bit (some 7) (some j))) ↔ o = 2384 + 488 * j.val := by
    intro o
    rw [eventAt_planReadTemp_eq_bit, show (7 : BitIndex).val = 7 from rfl]
    omega
  split
  case isTrue h =>
    rw [quietRun_bufGet_sampled ins hk planLength_planReadTemp.le h hn ((hbit7 _).mpr rfl)
      fun o' h₁ _ he => by have := (hbit7 o').mp he; omega]
    refine byte_ext fun i => ?_
    rw [readTemp_sr_sampled ins hk (by omega) j.isLt (by omega) (by omega), bitOf_byteAt]
    congr 1
    omega
  case isFalse h =>
    refine (writtenBySamples_bufGet j).quietRun_kept hk (Nat.zero_le n) hn ?_
    rintro o - ho _ rfl he
    have := (hbit7 o).mp he
    omega

end

/-- Settles O45: each result shows the latest of its samples that the run has passed, and `TEMP` waits for
completion. -/
theorem partialTemperatureReadShowsWhatWasSampled : Obligations.PartialTemperatureReadShowsWhatWasSampled := by
  unfold Obligations.PartialTemperatureReadShowsWhatWasSampled
  intro s ins hs hl hc
  obtain ⟨t, hexec, ht, hrun⟩ :=
    exec_run_inside (i := .readTemp) ins rfl hs (hl.trans_eq planLength_planReadTemp.symm) hc
  rw [show plan .readTemp s.buf = planReadTemp from rfl] at ht hrun
  obtain ⟨hk, hpres, htemp, hbuf, hrbit, hsr⟩ : t.k = 0 ∧ t.pres = s.pres ∧ t.temp = s.temp ∧ t.buf = s.buf ∧
      t.rbit = s.rbit ∧ t.sr = s.sr := by simp [ht]
  obtain ⟨_, _, _, _, _, _, hframe⟩ := quietRun_frame planReadTemp (inputAt ins) ins.length t
  rw [← hpres, ← htemp, ← hbuf, ← hrbit, ← hsr]
  exact ⟨t, _, hexec, hrun, readTemp_pres_partial ins hk hl.le, by rw [hframe], readTemp_buf_partial ins hk hl.le,
    readTemp_rbit_old ins hk hl.le, fun _ => readTemp_rbit_sampled ins hk hl.le,
    fun _ => ⟨readTemp_sr_old ins hk hl.le, fun _ => readTemp_sr_sampled ins hk hl.le⟩⟩

end Sys2Proof.Machine
end

section
/-! A hardware reset through the step (70_reset_and_hazards.md R220, R221, R223). -/

namespace Sys2Proof.Machine

/-- R220: `Reset`, and a host write that arrives while `rst` is held, both leave the block reset. -/
theorem perform_of_isReset {a : Action} (ha : a.isReset = true) (s : State) :
    perform a s = .next s.hardwareReset := by
  cases a with
  | reset | writeInReset _ _ => rfl
  | tick _ | write _ _ | read _ => cases ha

/-- R221: whatever is in flight, only the environment's fields outlive a scheduled reset action. -/
theorem step_of_pending_reset {s : State} {a : Action} {rest : List Action} (ha : a.isReset = true)
    (h : s.pending = a :: rest) :
    step s = .next { State.reset with pending := rest, draws := s.draws, hostReads := s.hostReads } := by
  rw [step_of_pending_cons h, perform_of_isReset ha, State.hardwareReset]

/-- Settles O2: both actions are reset actions, and a scheduled reset action resets the block. -/
theorem hardwareResetFromAnyState : Obligations.HardwareResetFromAnyState := by
  unfold Obligations.HardwareResetFromAnyState
  intro s rest a v
  exact ⟨step_of_pending_reset rfl, step_of_pending_reset rfl⟩

end Sys2Proof.Machine
end

section
/-! A command and its ticks taken off the schedule by the step (70_reset_and_hazards.md R240, 40_bus_bit.md
R124): a run of steps is the issue and then the run of ticks. -/

namespace Sys2Proof.Machine

/-! ## Ticks and the schedule -/

/-- The state with the environment's coming actions replaced (log entry 2). -/
def State.withSchedule (s : State) (l : List Action) : State := { s with pending := l }

theorem State.performEvent_withSchedule (s : State) (l : List Action) (dev : Bool) (e : LineEvent) :
    (s.withSchedule l).performEvent dev e = (s.performEvent dev e).withSchedule l := by
  match e with
  | .L | .H | .S .presence | .S (.bit none _) | .S (.bit (some _) none) | .S (.bit (some _) (some _)) => rfl

theorem State.afterEvent_withSchedule (s : State) (l : List Action) (p : List Slot) (x : TickInput) :
    (s.withSchedule l).afterEvent p x = (s.afterEvent p x).withSchedule l := by
  rw [State.afterEvent, State.afterEvent, show (s.withSchedule l).k = s.k from rfl]
  cases eventAt p s.k.toNat with
  | none => rfl
  | some e => exact s.performEvent_withSchedule l x.dev e

theorem State.advance_withSchedule (s : State) (l : List Action) (n : Nat) :
    (s.withSchedule l).advance n = (s.advance n).withSchedule l := by
  by_cases h : s.k.toNat + 1 = n
  · rw [State.advance_last h, State.advance_last (s := s.withSchedule l) h]
    rfl
  · rw [State.advance_inside h, State.advance_inside (s := s.withSchedule l) h]
    rfl

theorem State.tickPlan_withSchedule (s : State) (l : List Action) (p : List Slot) (x : TickInput) :
    (s.withSchedule l).tickPlan p x = (s.tickPlan p x).withSchedule l := by
  rcases s.tickPlan_cases p x with ⟨he, hx, h⟩ | ⟨hx, h⟩
  · rw [h, State.tickPlan_of_failure (s := s.withSchedule l) he hx]
    rfl
  · rw [h, State.tickPlan_of_no_failure (s := s.withSchedule l) hx, State.afterEvent_withSchedule,
      State.advance_withSchedule]

/-- A tick neither reads nor writes the schedule. -/
theorem tick_withSchedule {s t : State} {x : TickInput} (h : tick x s = .next t) (l : List Action) :
    tick x (s.withSchedule l) = .next (t.withSchedule l) := by
  cases perform_cases (a := .tick x) h with
  | idleTick _ hb => exact tick_idle (s := s.withSchedule l) hb
  | busyTick _ i hb hi =>
    rw [tick_busy (s := s.withSchedule l) hb hi, State.tickPlan_withSchedule]
    rfl

/-! ## Steps that perform the schedule -/

theorem run_succ_of_step {s t : State} (h : step s = .next t) (n : Nat) :
    core.run (n + 1) s = core.run n t := by
  simp only [Host.Core.run, show core.step s = .next t from h]

/-- Ticks that head the schedule pass one by one, as a run of ticks. -/
theorem run_scheduledTicks (rest : List Action) {u : State} : ∀ (ins : List TickInput) (s : State),
    runTicks ins s = .next u →
    core.run ins.length (s.withSchedule (ins.map Action.tick ++ rest)) = .next (u.withSchedule rest) := by
  intro ins
  induction ins with
  | nil => intro s h; cases h; rfl
  | cons x ins ih =>
    intro s h
    rw [runTicks] at h
    split at h
    case h_1 t ht =>
      have hstep : step (s.withSchedule ((x :: ins).map Action.tick ++ rest)) =
          .next (t.withSchedule (ins.map Action.tick ++ rest)) :=
        (step_of_pending_cons (a := .tick x) (rest := ins.map Action.tick ++ rest) rfl).trans
          (tick_withSchedule ht _)
      rw [List.length_cons, run_succ_of_step hstep, ih t h]
    case h_2 | h_3 => cases h

/-- A command that heads the schedule is issued by one step, and its ticks pass in the steps after it. -/
theorem run_scheduledCommand {s t u : State} {i : Instr} {ins : List TickInput} {rest : List Action}
    (hs : s.busy = false) (hw : i.wellFormed = true)
    (hp : s.pending = .write 0x00 (encode i) :: (ins.map Action.tick ++ rest))
    (ht : exec i s = .next t) (hrun : runTicks ins t = .next u) :
    core.run (1 + ins.length) s = .next (u.withSchedule rest) := by
  have hstep : step s = .next (t.withSchedule (ins.map Action.tick ++ rest)) := by
    rw [exec_idle hs hw] at ht
    cases ht
    rw [stepRunsTheDecodedCommand s _ _ i hp (decode_encode hw)]
    exact exec_idle hs hw
  rw [Nat.add_comm, run_succ_of_step hstep, run_scheduledTicks rest ins t hrun]

/-! ## The state inside a command and at its end -/

theorem inFlight_accept {i : Instr} {s : State} (hw : i.wellFormed = true)
    (h0 : planLength (plan i s.buf) ≠ 0) :
    InFlight i (plan i s.buf) (s.accept (encode i) (planLength (plan i s.buf))) :=
  ⟨decide_eq_true h0, decode_encode hw, rfl⟩

theorem Clean.take {p : List Slot} {ins : List TickInput} (h : Clean p ins) (n : Nat) :
    Clean p (ins.take n) := by
  intro o x hx
  rw [List.getElem?_take] at hx
  split at hx
  · exact h o x hx
  · cases hx

/-- R240: with fewer ticks passed than its length a command is in flight, `k` the number passed. -/
theorem exec_run_inside_flags {i : Instr} {s : State} (ins : List TickInput) (hw : i.wellFormed = true)
    (hs : s.busy = false) (hl : ins.length < planLength (plan i s.buf)) (hc : Clean (plan i s.buf) ins) :
    ∃ t u, exec i s = .next t ∧ runTicks ins t = .next u ∧
      u.busy = true ∧ u.k.toNat = ins.length ∧ u.done = false ∧ u.err = false := by
  have h0 : planLength (plan i s.buf) ≠ 0 := by omega
  have hT := planLength_plan_le i s.buf
  obtain ⟨t, hexec, ht, hrun⟩ := exec_run_inside ins hw hs hl hc
  have hk : t.k = 0 := by rw [ht]; rfl
  have hflight : InFlight i (plan i s.buf) t := ht ▸ inFlight_accept hw h0
  obtain ⟨_, _, _, _, _, _, hframe⟩ := quietRun_frame (plan i s.buf) (inputAt ins) ins.length t
  refine ⟨t, _, hexec, hrun, (hflight.quietRun _).busy, quietRun_k_toNat hk (by omega), ?_⟩
  rw [hframe, ht]
  exact ⟨decide_eq_false h0, rfl⟩

/-- R124: the last tick of a command completes it; a command without ticks is complete in its issue. -/
theorem exec_run_to_end_flags {i : Instr} {s : State} (ins : List TickInput) (hw : i.wellFormed = true)
    (hs : s.busy = false) (hl : ins.length = planLength (plan i s.buf)) (hc : Clean (plan i s.buf) ins) :
    ∃ t u, exec i s = .next t ∧ runTicks ins t = .next u ∧
      u.busy = false ∧ u.done = true ∧ u.err = false ∧ u.cmd = encode i := by
  by_cases h0 : planLength (plan i s.buf) = 0
  case pos =>
    obtain rfl : ins = [] := List.eq_nil_of_length_eq_zero (hl.trans h0)
    refine ⟨_, _, exec_idle hs hw, rfl, ?_⟩
    rw [h0, State.accept_zero _ hs]
    exact ⟨hs, rfl, rfl, rfl⟩
  case neg =>
    refine ⟨_, _, exec_idle hs hw, runTicks_to_end (f := inputAt ins) (planLength_plan_le i s.buf) ins _
      (inFlight_accept hw h0) (by rintro rfl; exact h0 hl.symm) (by simpa using hl) ?inputs ?clean, ?_⟩
    case inputs => intro o x hx; simp [inputAt, hx]
    case clean => simpa [Clean] using hc
    obtain ⟨_, _, _, _, _, _, hframe⟩ := quietRun_frame (plan i s.buf) (inputAt ins) ins.length
      (s.accept (encode i) (planLength (plan i s.buf)))
    rw [hframe]
    exact ⟨rfl, rfl, rfl, rfl⟩

/-- Settles O42: the schedule is performed as the issue and a run of ticks, which is inside the plan until its
last tick and complete after it. -/
theorem everyCommandTakesExactlyItsLength : Obligations.EveryCommandTakesExactlyItsLength := by
  unfold Obligations.EveryCommandTakesExactlyItsLength
  intro s i ins rest hs hw hl hc hp
  refine ⟨fun n hn => ?inside, ?ended⟩
  case inside =>
    have hlen : (ins.take n).length = n := List.length_take_of_le hn.le
    obtain ⟨t, u, ht, hu, hflags⟩ := exec_run_inside_flags (ins.take n) hw hs (by omega) (hc.take n)
    rw [← List.take_append_drop n ins, List.map_append, List.append_assoc] at hp
    have hrun := run_scheduledCommand hs hw hp ht hu
    rw [hlen] at hrun hflags
    exact ⟨_, hrun, hflags⟩
  case ended =>
    obtain ⟨t, u, ht, hu, hbusy, hdone, herr, hcmd⟩ := exec_run_to_end_flags ins hw hs hl hc
    exact ⟨_, run_scheduledCommand hs hw hp ht hu, hbusy, hdone, herr, hcmd, rfl⟩

end Sys2Proof.Machine
end
